-- ==== Sys2Proof/Word.lean ====
section
/-! DEFINITION. The word types of the CCE and the small named alternatives its encodings and errors use
(spec 00 R8, R9; 20 R61; 60 R210, R215). -/

namespace Sys2Proof

/-- One byte, an unsigned 8-bit value (00 R9). -/
abbrev Byte := BitVec 8

/-- One bus data word (20 R61, 92 D3). -/
abbrev Word := BitVec 32

/-- `Bytes16`: a key, an IV, a cipher block or a constant, byte 0 first (00 R9, 41 R141). -/
abbrev Block := Vector Byte 16

/-- The all-zero block `0^16` (00 R9), which is also the IV of every command (10 R33). -/
def zeroBlock : Block := Vector.replicate 16 0#8

/-- `xor16`: bytewise exclusive or (00 R9). -/
def xor16 (a b : Block) : Block := Vector.zipWith (· ^^^ ·) a b

/-- The direction of a transaction (20 R61). -/
inductive Dir where
  | read
  | write
  deriving DecidableEq, Repr

/-- A host transaction `(dir, off, size, wdata)` (20 R61). The size is the access size in bytes; `wdata` is
used only by a write. -/
structure Txn where
  dir : Dir
  off : BitVec 8
  size : Nat
  wdata : Word
  deriving DecidableEq, Repr

/-- The four causes of a bus error (60 R210). -/
inductive BusCause where
  | size
  | align
  | reserved
  | direction
  deriving DecidableEq, Repr

/-- The three causes for which a CMD word is rejected (60 R215). -/
inductive CmdReject where
  | rsvdBits
  | badOp
  | range
  deriving DecidableEq, Repr

/-- Which slot of the key ROM a command uses (10 R31): KSEL 0 is `KEY_H2D`, KSEL 1 is `KEY_D2H`. -/
inductive KeySel where
  | h2d
  | d2h
  deriving DecidableEq, Repr

/-- The operation of a command (10 R23, field OP). -/
inductive CbcOp where
  | enc
  | dec
  deriving DecidableEq, Repr

/-- The decoded fields of a CMD word (10 R34): OP, KSEL, SBLK and NBM1 (number of blocks minus one). -/
structure Command where
  op : CbcOp
  ksel : KeySel
  sblk : BitVec 2
  nbm1 : BitVec 2
  deriving DecidableEq, Repr

/-- `nblk = NBM1 + 1`, 1 to 4 blocks (30 R83). -/
def blockCount (nbm1 : BitVec 2) : Nat := nbm1.toNat + 1

/-- The two instruction formats (30 R80): a bus selector `S = {dir, off}` with its write data, and a CMD word.
Where the value comes from tells the format, never its bits. -/
inductive Encoding where
  | bus (sel : BitVec 9) (wdata : Word)
  | cmd (word : Word)
  deriving DecidableEq, Repr

/-- Why a decoder refuses an encoding: a bus cause or a command cause. -/
inductive DecodeReject where
  | bus (cause : BusCause)
  | cmd (cause : CmdReject)
  deriving DecidableEq, Repr

end Sys2Proof
end

