-- ==== Sys2Proof/Config.lean ====
section
/-! DEFINITION. The implementation parameters of the CCE (spec 00 R6). Each is fixed for the life of the hardware and
its value is in no source, so each is an uninterpreted constant: nothing in Lean can evaluate it (log 7). -/

namespace Sys2Proof

/-- The block cipher: for each key a permutation of the 16-byte blocks. A permutation with its inverse is exactly
the pair `CIPHER_E`, `CIPHER_D` of total, mutually inverse functions that 00 R6 and R7 ask for, and no more. -/
opaque Config.cipher : Block → Equiv.Perm Block

/-- `CIPHER_E`, key first (00 R6, 41 R140). -/
def Config.cipherE (key block : Block) : Block := Config.cipher key block

/-- `CIPHER_D`, key first (00 R6, 41 R140). -/
def Config.cipherD (key block : Block) : Block := (Config.cipher key).symm block

/-- `KEY_H2D`, the host to device key, slot 0 of the key ROM (10 R31). -/
opaque Config.keyH2D : Block

/-- `KEY_D2H`, the device to host key, slot 1 of the key ROM (10 R31). -/
opaque Config.keyD2H : Block

/-- `REF`, the fixed reference value (10 R32). -/
opaque Config.ref : Block

/-- `AUTH1R_HDR`, the AUTH1-response header constant (10 R32). -/
opaque Config.auth1rHdr : Block

/-- `AUTH2_HDR`, the AUTH2 header constant (10 R32). -/
opaque Config.auth2Hdr : Block

/-- Bits [31:8] of `BASE`. -/
opaque Config.basePage : BitVec 24

/-- `BASE`, where the window sits in the host's address space: a multiple of 256 (00 R6). -/
def Config.base : BitVec 32 := Config.basePage ++ 0#8

end Sys2Proof
end

