-- ==== Sys2Proof/Syntax.lean ====
section
/-! DEFINITION. The instructions of the CCE: one constructor per row of spec/opcode_table.json (30 R85, R86). -/

namespace Sys2Proof

/-- A `BUS` instruction is a host transaction that passed the bus checks; a `CMD` instruction is an operation of the
engine. A write carries its whole `wdata` (30 R83); `w` is a word index in BUF or in a constant. -/
inductive Instr where
  | cmdRd
  | cmdWr (wdata : Word)
  | statusRd
  | statusWr (wdata : Word)
  | cksAccRd
  | cksAccWr (wdata : Word)
  | cksIn8 (wdata : Word)
  | cksIn32 (wdata : Word)
  | cksHexRd
  | cksVfyWr (wdata : Word)
  | cksVfyRd
  | bufRd (w : BitVec 4)
  | bufWr (w : BitVec 4) (wdata : Word)
  | refRd (w : BitVec 2)
  | auth1rHdrRd (w : BitVec 2)
  | auth2HdrRd (w : BitVec 2)
  | cbcEnc (ksel : KeySel) (sblk nbm1 : BitVec 2)
  | cbcDec (ksel : KeySel) (sblk nbm1 : BitVec 2)
  deriving DecidableEq, Repr

/-- The instruction a decoded command stands for (30 R86). -/
def Command.toInstr (c : Command) : Instr :=
  match c.op with
  | .enc => .cbcEnc c.ksel c.sblk c.nbm1
  | .dec => .cbcDec c.ksel c.sblk c.nbm1

end Sys2Proof
end

