-- ==== Sys2Proof/WellFormed.lean ====
section
/-! DEFINITION. The one check an instruction needs beyond its fields' widths: a command's blocks lie in BUF
(30 R86, 41 R146). -/

namespace Sys2Proof

/-- `sblk + nblk <= 4`. -/
def blocksInRange (sblk nbm1 : BitVec 2) : Bool := decide (sblk.toNat + blockCount nbm1 ≤ 4)

/-- The range check on a decoded command. -/
def Command.inRange (c : Command) : Bool := blocksInRange c.sblk c.nbm1

/-- A well-formed instruction: every `BUS` instruction, and a `CMD` instruction whose blocks lie in BUF. -/
def Instr.wellFormed : Instr → Bool
  | .cmdRd | .cmdWr _ | .statusRd | .statusWr _ => true
  | .cksAccRd | .cksAccWr _ | .cksIn8 _ | .cksIn32 _ | .cksHexRd | .cksVfyWr _ | .cksVfyRd => true
  | .bufRd _ | .bufWr _ _ | .refRd _ | .auth1rHdrRd _ | .auth2HdrRd _ => true
  | .cbcEnc _ sblk nbm1 => blocksInRange sblk nbm1
  | .cbcDec _ sblk nbm1 => blocksInRange sblk nbm1

end Sys2Proof
end

