-- ==== Sys2Proof/Decode.lean ====
section
/-! DEFINITION. Decoding, total and rejecting by name, and the encoder written from the same tables of the spec
(30 R80 to R87; 20 R62 for the window). -/

namespace Sys2Proof

/-! ## The window -/

/-- The offset a host address reaches: `off = a - BASE` when `BASE <= a < BASE + 256`; other addresses do not reach
the CCE (20 R62). `BASE` is a multiple of 256, so the comparison is one of bits [31:8]. -/
def windowOffset (a : BitVec 32) : Option (BitVec 8) :=
  if a.extractLsb' 8 24 = Config.basePage then some (a.extractLsb' 0 8) else none

/-- The transaction that a host access at an absolute address presents to the CCE, none if it goes elsewhere. -/
def txnAtAddress (dir : Dir) (a : BitVec 32) (size : Nat) (wdata : Word) : Option Txn :=
  (windowOffset a).map fun off => ⟨dir, off, size, wdata⟩

/-! ## The bus format -/

/-- One row of the `BUS` opcode map: the bits under `mask` equal `pattern`. -/
structure BusRow where
  pattern : BitVec 9
  mask : BitVec 9
  make : BitVec 9 → Word → Instr

/-- BUF word index `S[5:2]` (30 R81). -/
def bufIndex (sel : BitVec 9) : BitVec 4 := sel.extractLsb' 2 4

/-- Constant word index `S[3:2]` (30 R81). -/
def constIndex (sel : BitVec 9) : BitVec 2 := sel.extractLsb' 2 2

/-- The rows for the control and status registers (30 R85). -/
def controlRows : List BusRow :=
  [ ⟨0x000#9, 0x1FF#9, fun _ _ => .cmdRd⟩,
    ⟨0x100#9, 0x1FF#9, fun _ d => .cmdWr d⟩,
    ⟨0x004#9, 0x1FF#9, fun _ _ => .statusRd⟩,
    ⟨0x104#9, 0x1FF#9, fun _ d => .statusWr d⟩ ]

/-- The rows for the checksum unit (30 R85). -/
def checksumRows : List BusRow :=
  [ ⟨0x008#9, 0x1FF#9, fun _ _ => .cksAccRd⟩,
    ⟨0x108#9, 0x1FF#9, fun _ d => .cksAccWr d⟩,
    ⟨0x10C#9, 0x1FF#9, fun _ d => .cksIn8 d⟩,
    ⟨0x110#9, 0x1FF#9, fun _ d => .cksIn32 d⟩,
    ⟨0x014#9, 0x1FF#9, fun _ _ => .cksHexRd⟩,
    ⟨0x118#9, 0x1FF#9, fun _ d => .cksVfyWr d⟩,
    ⟨0x018#9, 0x1FF#9, fun _ _ => .cksVfyRd⟩ ]

/-- The rows for BUF and the constant windows (30 R85). -/
def windowRows : List BusRow :=
  [ ⟨0x040#9, 0x1C3#9, fun s _ => .bufRd (bufIndex s)⟩,
    ⟨0x140#9, 0x1C3#9, fun s d => .bufWr (bufIndex s) d⟩,
    ⟨0x080#9, 0x1F3#9, fun s _ => .refRd (constIndex s)⟩,
    ⟨0x090#9, 0x1F3#9, fun s _ => .auth1rHdrRd (constIndex s)⟩,
    ⟨0x0A0#9, 0x1F3#9, fun s _ => .auth2HdrRd (constIndex s)⟩ ]

/-- The whole `BUS` opcode map, 16 rows (30 R85). -/
def busRows : List BusRow := controlRows ++ checksumRows ++ windowRows

/-- Whether a selector matches a row. -/
def BusRow.matchesSel (r : BusRow) (sel : BitVec 9) : Bool := sel &&& r.mask == r.pattern

/-- The reserved offsets `0x1C` to `0x3F` and `0xB0` to `0xFF` (20 R65; 60 R210 names their aligned ones). -/
def isReserved (off : BitVec 8) : Bool :=
  (0x1C#8 ≤ off && off < 0x40#8) || 0xB0#8 ≤ off

/-- The selector `S = {dir, off[7:0]}`, `dir` = 1 for a write (30 R80). -/
def selector (dir : Dir) (off : BitVec 8) : BitVec 9 :=
  match dir with
  | .read => 0b0#1 ++ off
  | .write => 0b1#1 ++ off

/-- Decoding a selector, checks 2 to 4 of 30 R84 in their order. -/
def decodeSelector (sel : BitVec 9) (wdata : Word) : Except BusCause Instr :=
  if sel.extractLsb' 0 2 ≠ 0#2 then .error .align
  else if isReserved (sel.extractLsb' 0 8) then .error .reserved
  else
    match busRows.find? (fun r => r.matchesSel sel) with
    | some r => .ok (r.make sel wdata)
    | none => .error .direction

/-- Decoding a transaction, checks 1 to 4 of 30 R84 in their order. -/
def decodeTxn (t : Txn) : Except BusCause Instr :=
  if t.size ≠ 4 then .error .size else decodeSelector (selector t.dir t.off) t.wdata

/-! ## The command format -/

/-- The reserved bits of a CMD word: [31:14], [11:10], [7:5] and [3:2] (10 R23). -/
def cmdReservedMask : Word := 0xFFFFCCEC#32

/-- The fields of a CMD word beside OP (30 R83). -/
def commandFields (op : CbcOp) (w : Word) : Command :=
  { op := op
    ksel := if w.extractLsb' 4 1 = 1#1 then .d2h else .h2d
    sblk := w.extractLsb' 8 2
    nbm1 := w.extractLsb' 12 2 }

/-- Decoding a CMD word against the two rows of 30 R86, rejecting in the order of 60 R215. The range of the blocks
is no part of the pattern. -/
def decodeCommand (w : Word) : Except CmdReject Command :=
  if w &&& cmdReservedMask ≠ 0#32 then .error .rsvdBits
  else if w.extractLsb' 0 2 = 0b01#2 then .ok (commandFields .enc w)
  else if w.extractLsb' 0 2 = 0b10#2 then .ok (commandFields .dec w)
  else .error .badOp

/-- The three checks a CMD write makes, the first that fails first (41 R146). -/
def checkCommand (w : Word) : Except CmdReject Command :=
  match decodeCommand w with
  | .error e => .error e
  | .ok c => if c.inRange then .ok c else .error .range

/-! ## Both formats -/

/-- The decoder of both formats. -/
def decode : Encoding → Except DecodeReject Instr
  | .bus sel wdata =>
    match decodeSelector sel wdata with
    | .ok i => .ok i
    | .error c => .error (.bus c)
  | .cmd w =>
    match decodeCommand w with
    | .ok c => .ok c.toInstr
    | .error c => .error (.cmd c)

/-- The instruction of a table word: a `BUS` row is its 9-bit selector in 16 bits, with write data 0; a `CMD` row is
its 32-bit word (log 12). -/
def decodeTableWord (nbits w : Nat) : Option Instr :=
  if nbits ≤ 16 then
    if w < 512 then (decode (.bus (BitVec.ofNat 9 w) 0#32)).toOption else none
  else if nbits = 32 then
    if w < 2 ^ 32 then (decode (.cmd (BitVec.ofNat 32 w))).toOption else none
  else none

/-! ## Encoding -/

/-- The KSEL bit (10 R23). -/
def kselBit : KeySel → BitVec 1
  | .h2d => 0b0#1
  | .d2h => 0b1#1

/-- The OP field (10 R23). -/
def opBits : CbcOp → BitVec 2
  | .enc => 0b01#2
  | .dec => 0b10#2

/-- `cmd_word`, laid out as the pattern of 30 R86. -/
def cmdWord (op : CbcOp) (ksel : KeySel) (sblk nbm1 : BitVec 2) : Word :=
  0#18 ++ nbm1 ++ 0#2 ++ sblk ++ 0#3 ++ kselBit ksel ++ 0#2 ++ opBits op

/-- The word of a decoded command. -/
def Command.word (c : Command) : Word := cmdWord c.op c.ksel c.sblk c.nbm1

/-- The encoder: the selector of each row (30 R85) with its field bits in place, or the CMD word (30 R86). A read has
no write data; its encoding carries 0. -/
def encode : Instr → Encoding
  | .cmdRd => .bus 0b000000000#9 0#32
  | .cmdWr d => .bus 0b100000000#9 d
  | .statusRd => .bus 0b000000100#9 0#32
  | .statusWr d => .bus 0b100000100#9 d
  | .cksAccRd => .bus 0b000001000#9 0#32
  | .cksAccWr d => .bus 0b100001000#9 d
  | .cksIn8 d => .bus 0b100001100#9 d
  | .cksIn32 d => .bus 0b100010000#9 d
  | .cksHexRd => .bus 0b000010100#9 0#32
  | .cksVfyWr d => .bus 0b100011000#9 d
  | .cksVfyRd => .bus 0b000011000#9 0#32
  | .bufRd w => .bus (0b001#3 ++ w ++ 0b00#2) 0#32
  | .bufWr w d => .bus (0b101#3 ++ w ++ 0b00#2) d
  | .refRd w => .bus (0b01000#5 ++ w ++ 0b00#2) 0#32
  | .auth1rHdrRd w => .bus (0b01001#5 ++ w ++ 0b00#2) 0#32
  | .auth2HdrRd w => .bus (0b01010#5 ++ w ++ 0b00#2) 0#32
  | .cbcEnc ksel sblk nbm1 => .cmd (cmdWord .enc ksel sblk nbm1)
  | .cbcDec ksel sblk nbm1 => .cmd (cmdWord .dec ksel sblk nbm1)

/-- The transaction of a selector (30 R80), with the one legal access size. -/
def selectorTxn (sel : BitVec 9) (wdata : Word) : Txn :=
  { dir := if sel.extractLsb' 8 1 = 1#1 then .write else .read
    off := sel.extractLsb' 0 8
    size := 4
    wdata := wdata }

/-- The transaction a host issues to have a `BUS` instruction run (20 R61), none for a `CMD` instruction. -/
def busTxn (i : Instr) : Option Txn :=
  match encode i with
  | .bus sel wdata => some (selectorTxn sel wdata)
  | .cmd _ => none

end Sys2Proof
end

