-- ==== Sys2Proof/Machine/State.lean ====
section
/-! DEFINITION. The state of the CCE (spec 10 R22) and of the bus beside it, as plain data, and the ways a step can
stop. -/

namespace Sys2Proof.Machine

/-- BUF as a list of (byte index, byte) in one canonical form: indexes strictly rising and below 64, no byte `0x00`
listed; an unlisted byte reads `0x00`, its reset value (10 R30; log 10). -/
abbrev Memory := List Host.Cell

/-- The response `OKAY` to a host transaction (20 R61): a read brings `rdata`, a write brings no value. `ERROR` is no
value but a fault (60 R210). -/
inductive Response where
  | readData (rdata : Word)
  | writeDone
  deriving DecidableEq, Repr

/-- What comes from outside the CCE next (log 1): the host issues a transaction, the engine is given its turn before
the host (with `busy = 0` and a transaction held, the turn to perform it: log 3), or the reset input is asserted. -/
inductive Event where
  | host (t : Txn)
  | engine
  | reset
  deriving DecidableEq, Repr

/-- The record of 10 R22 (`cmd` to `pending`), and the bus side (`held`, `resp`, `events`). -/
structure State where
  cmd : Word
  busy : Bool
  done : Bool
  err : Bool
  errcode : BitVec 4
  acc : Byte
  vmatch : Bool
  pvalid : Bool
  pval : Byte
  buf : Memory
  pending : Option Command
  held : Option Instr
  resp : Option Response
  events : List Event
  deriving DecidableEq, Repr

/-- Why a step stops with a fault. -/
inductive Fault where
  /-- Raised by the host's step when its transaction gets the response ERROR (60 R210: "an `ERROR` response is a
  *fault* of the host program that issued it"); the CCE's state has not changed. Safe: the run stops where a host
  could go on. -/
  | busError (cause : BusCause) (off : BitVec 8)
  /-- Raised by the engine's turn when `busy = 1` and there is no pending command, which 10 R22 rules out. Safe: no
  state that meets the invariant raises it (log 9). -/
  | engineWithoutCommand
  deriving DecidableEq, Repr

/-- Why a step is refused. -/
inductive Refusal where
  /-- Raised by an arm of exec whose instruction has no meaning yet. Safe: nothing is claimed of it. -/
  | notModelled (mnemonic : String)
  /-- Raised by a reset while a host transaction is held (70 R242: "such a transaction makes the host program
  *refused*"). Safe: no claim covers it. -/
  | resetWhileOutstanding
  deriving DecidableEq, Repr

/-- The state after reset (10 R22, 70 R240, R241), with no transaction outstanding, no response given yet and no input
to come. -/
def State.reset : State :=
  { cmd := 0x00000000#32
    busy := false
    done := false
    err := false
    errcode := 0x0#4
    acc := 0x00#8
    vmatch := false
    pvalid := false
    pval := 0x00#8
    buf := []
    pending := none
    held := none
    resp := none
    events := [] }

end Sys2Proof.Machine
end

