-- ==== Sys2Proof/Machine/CbcMode.lean ====
section
/-! DEFINITION. Cipher block chaining over a list of blocks (spec 41 R142, R143; the definition of CBC is the spec's
own, supplied from general knowledge, 93 GK1; log 14). The block functions are arguments, so that the mode stands apart
from the cipher. -/

namespace Sys2Proof.Machine

/-- `CBC_E`: each ciphertext block is the chaining value of the next (41 R142). -/
def cbcEncrypt (e : Block → Block) : Block → List Block → List Block
  | _, [] => []
  | iv, p :: ps => e (xor16 p iv) :: cbcEncrypt e (e (xor16 p iv)) ps

/-- `CBC_D`: the chaining value of a block is the INPUT ciphertext block before it (41 R143). -/
def cbcDecrypt (d : Block → Block) : Block → List Block → List Block
  | _, [] => []
  | iv, c :: cs => xor16 (d c) iv :: cbcDecrypt d c cs

end Sys2Proof.Machine
end

