-- ==== Sys2Proof/Machine/Operands.lean ====
section
/-! DEFINITION. The operand forms of the CCE: byte lanes of a word, words of the constants, fields of the write data,
the key a command selects (20 R63, 30 R83, 41 R149). -/

namespace Sys2Proof.Machine

/-! ## Byte lanes (20 R63): little-endian, fixed -/

/-- Byte `k` of a word: bits `[8k+7:8k]`. -/
def byteLane (v : Word) (k : Nat) : Byte := v.extractLsb' (8 * k) 8

/-- The word whose bytes at rising offsets are `b0` to `b3`: `{b3, b2, b1, b0}`. -/
def wordOfBytes (b0 b1 b2 b3 : Byte) : Word := b3 ++ b2 ++ b1 ++ b0

/-- Word `w` of a 16-byte constant: `{A[4w+3], A[4w+2], A[4w+1], A[4w]}` (42 R188 to R190). -/
def constWord (a : Block) (w : BitVec 2) : Word :=
  have := w.isLt
  wordOfBytes (a[4 * w.toNat]'(by omega)) (a[4 * w.toNat + 1]'(by omega))
    (a[4 * w.toNat + 2]'(by omega)) (a[4 * w.toNat + 3]'(by omega))

/-- Byte index in BUF of BUF word `w` (30 R83). -/
def bufByteIndex (w : BitVec 4) : Nat := 4 * w.toNat

/-- Byte index in BUF of block `j` (10 R30). -/
def blockByteIndex (j : Nat) : Nat := 16 * j

/-! ## Fields of the write data -/

/-- The byte operand of CKS_ACC_WR and CKS_IN8: `wdata[7:0]`, the rest ignored (40 R101, R102). -/
def dataByte (wdata : Word) : Byte := byteLane wdata 0

/-- The first claimed character, `c0 = wdata[7:0]` (40 R110). -/
def vfyChar0 (wdata : Word) : Byte := byteLane wdata 0

/-- The second claimed character, `c1 = wdata[15:8]` (40 R110). -/
def vfyChar1 (wdata : Word) : Byte := byteLane wdata 1

/-- The claimed length, `len = wdata[17:16]`; 3 means "3 or more" (40 R110). -/
def vfyLen (wdata : Word) : BitVec 2 := wdata.extractLsb' 16 2

/-- STATUS_WR: clear DONE, `wdata[1]` (42 R184). -/
def clearsDone (wdata : Word) : Bool := wdata.getLsbD 1

/-- STATUS_WR: clear ERR and ERRCODE, `wdata[2]` (42 R184). -/
def clearsErr (wdata : Word) : Bool := wdata.getLsbD 2

/-- The key a command uses: slot 0 is `KEY_H2D`, slot 1 is `KEY_D2H`, with either operation (41 R149). -/
def keyOf : KeySel → Block
  | .h2d => Config.keyH2D
  | .d2h => Config.keyD2H

end Sys2Proof.Machine
end

