-- ==== Sys2Proof/Machine/Text.lean ====
section
/-! DEFINITION. The pure functions of the checksum unit over bytes and strings (spec 40 R100, R104, R107 to R109). A
string is the list of its ASCII codes, first character first (00 R9). The ASCII codes are the spec's own, supplied from
general knowledge (93 GK4; log 14). -/

namespace Sys2Proof.Machine

/-- `checksum`: the sum of all byte values modulo 256, 0 for the empty sequence (40 R100). The carry out of bit 7 is
discarded at every step. -/
def checksum : List Byte → Byte
  | [] => 0x00#8
  | b :: p => b + checksum p

/-- `hexchar n`: `'0'` to `'9'`, `'A'` to `'F'` (40 R104). -/
def hexchar (n : BitVec 4) : Byte :=
  if n ≤ 9#4 then 0x30#8 + n.setWidth 8 else 0x41#8 + (n.setWidth 8 - 10#8)

/-- The high digit of a byte, `b[7:4]`. -/
def highNibble (b : Byte) : BitVec 4 := b.extractLsb' 4 4

/-- The low digit of a byte, `b[3:0]`. -/
def lowNibble (b : Byte) : BitVec 4 := b.extractLsb' 0 4

/-- `format`: two uppercase hex digits, most significant first (40 R104). -/
def format (b : Byte) : List Byte := [hexchar (highNibble b), hexchar (lowNibble b)]

/-- `format_word`: the first character in bits [7:0], the second in bits [15:8] (40 R104). -/
def formatWord (b : Byte) : Word := 0#16 ++ hexchar (lowNibble b) ++ hexchar (highNibble b)

/-- `ishex` (40 R107). -/
def ishex (c : Byte) : Bool :=
  (0x30#8 ≤ c && c ≤ 0x39#8) || (0x41#8 ≤ c && c ≤ 0x46#8) || (0x61#8 ≤ c && c ≤ 0x66#8)

/-- `hexval` on the three ranges of `ishex` (40 R107); it is used only where `ishex` holds. -/
def hexval (c : Byte) : Byte :=
  if c ≤ 0x39#8 then c - 0x30#8 else if c ≤ 0x46#8 then c - 0x37#8 else c - 0x57#8

/-- `parse`: defined on exactly two hex digits (40 R107). -/
def parse : List Byte → Option Byte
  | [c0, c1] => if ishex c0 && ishex c1 then some (16#8 * hexval c0 + hexval c1) else none
  | _ => none

/-- `fold`: ASCII upper-casing of `'a'` to `'z'`, every other byte unchanged (40 R108). -/
def fold (c : Byte) : Byte := if 0x61#8 ≤ c && c ≤ 0x7A#8 then c - 0x20#8 else c

/-- `verify`: the claimed string, folded, is the format of the checksum (40 R109). -/
def verify (p claimed : List Byte) : Bool := claimed.map fold == format (checksum p)

end Sys2Proof.Machine
end

