-- ==== Sys2Proof/Machine/Flags.lean ====
section
/-! DEFINITION. The computed status words and result flags: STATUS (42 R183), ERRCODE values (60 R215) and the verify
result (40 R110, R111). -/

namespace Sys2Proof.Machine

/-- The STATUS word `{24'b0, errcode, 1'b0, err, done, busy}` (42 R183). -/
def statusWord (s : State) : Word :=
  0#24 ++ s.errcode ++ 0#1 ++ BitVec.ofBool s.err ++ BitVec.ofBool s.done ++ BitVec.ofBool s.busy

/-- ERRCODE of a rejected command (60 R215). -/
def rejectCode : CmdReject → BitVec 4
  | .rsvdBits => 0x1#4
  | .badOp => 0x2#4
  | .range => 0x3#4

/-- The claimed string has length two (40 R110). -/
def vfyTwo (wdata : Word) : Bool := vfyLen wdata == 2#2

/-- MATCH: the folded characters are the digits of `acc` (40 R110). -/
def vfyMatch (acc : Byte) (wdata : Word) : Bool :=
  vfyTwo wdata && fold (vfyChar0 wdata) == hexchar (highNibble acc)
    && fold (vfyChar1 wdata) == hexchar (lowNibble acc)

/-- PVALID: the claimed string is two hex digits (40 R110). -/
def vfyPvalid (wdata : Word) : Bool := vfyTwo wdata && ishex (vfyChar0 wdata) && ishex (vfyChar1 wdata)

/-- PVAL: the byte the two digits spell, `0x00` when PVALID is 0 (40 R110). -/
def vfyPval (wdata : Word) : Byte :=
  if vfyPvalid wdata then 16#8 * hexval (vfyChar0 wdata) + hexval (vfyChar1 wdata) else 0x00#8

/-- The CKS_VFY word `{16'b0, pval, 6'b0, pvalid, vmatch}` (40 R111). -/
def vfyWord (s : State) : Word :=
  0#16 ++ s.pval ++ 0#6 ++ BitVec.ofBool s.pvalid ++ BitVec.ofBool s.vmatch

end Sys2Proof.Machine
end

