-- ==== Sys2Proof/Machine/Ops.lean ====
section
/-! DEFINITION. The operations every meaning is written over: BUF byte by byte, by word and by block; the responses of
the bus; the stall; accepting, rejecting and finishing a command; reset. -/

namespace Sys2Proof.Machine

/-! ## BUF -/

/-- The canonical form of BUF (log 10). -/
abbrev Memory.wf (m : Memory) : Prop :=
  m.Pairwise (fun a b => a.1 < b.1) ∧ ∀ c ∈ m, c.1 < 64 ∧ c.2 ≠ 0x00#8

/-- Read byte `BUF[i]`; an unlisted byte reads its reset value `0x00` (10 R30). -/
def Memory.read : Memory → Nat → Byte
  | [], _ => 0x00#8
  | (a, b) :: m, i => if a = i then b else Memory.read m i

/-- Drop whatever is listed for byte `i`: it reads `0x00`. -/
def Memory.drop (m : Memory) (i : Nat) : Memory := m.filter fun c => c.1 != i

/-- List byte `i` at its place. -/
def Memory.insert : Memory → Nat → Byte → Memory
  | [], i, v => [(i, v)]
  | (a, b) :: m, i, v => if i < a then (i, v) :: (a, b) :: m else (a, b) :: Memory.insert m i v

/-- Write byte `BUF[i]`, keeping the canonical form: writing `0x00` lists nothing. -/
def Memory.write (m : Memory) (i : Nat) (v : Byte) : Memory :=
  if v = 0x00#8 then Memory.drop m i else Memory.insert (Memory.drop m i) i v

/-- Write bytes from index `i` upwards. -/
def Memory.writeBytes : Memory → Nat → List Byte → Memory
  | m, _, [] => m
  | m, i, v :: vs => Memory.writeBytes (Memory.write m i v) (i + 1) vs

/-- BUF word `w` (42 R186). -/
def Memory.readWord (m : Memory) (w : BitVec 4) : Word :=
  wordOfBytes (m.read (bufByteIndex w)) (m.read (bufByteIndex w + 1)) (m.read (bufByteIndex w + 2))
    (m.read (bufByteIndex w + 3))

/-- Store BUF word `w` (42 R187). -/
def Memory.writeWord (m : Memory) (w : BitVec 4) (v : Word) : Memory :=
  m.writeBytes (bufByteIndex w) [byteLane v 0, byteLane v 1, byteLane v 2, byteLane v 3]

/-- `Block(j) = BUF[16j:16j+16)` (10 R30). -/
def Memory.readBlock (m : Memory) (j : Nat) : Block :=
  Vector.ofFn fun k : Fin 16 => m.read (blockByteIndex j + k.val)

/-- `Block(j) .. Block(j + n - 1)`. -/
def Memory.readBlocks (m : Memory) : Nat → Nat → List Block
  | _, 0 => []
  | j, n + 1 => m.readBlock j :: Memory.readBlocks m (j + 1) n

/-- Store consecutive blocks from block `j`. -/
def Memory.writeBlocks : Memory → Nat → List Block → Memory
  | m, _, [] => m
  | m, j, b :: bs => Memory.writeBlocks (m.writeBytes (blockByteIndex j) b.toList) (j + 1) bs

/-! ## Responses and the stall -/

/-- Answer a read (20 R61). -/
def respondRead (rdata : Word) (s : State) : State := { s with resp := some (.readData rdata) }

/-- Answer a write (20 R61). -/
def respondWrite (s : State) : State := { s with resp := some .writeDone }

/-- Hold a transaction: no response until the engine has completed (20 R66). -/
def holdTransaction (i : Instr) (s : State) : State := { s with held := some i, resp := none }

/-- `stall until busy == 0`, then act (20 R66): while `busy = 1` the transaction is held. -/
def whenIdle (i : Instr) (act : State → State) (s : State) : Host.Outcome State Fault Refusal :=
  .next (if s.busy then holdTransaction i s else act s)

/-- The held transaction leaves the hold, to be performed. -/
def releaseHold (s : State) : State := { s with held := none }

/-! ## Registers -/

/-- Load the accumulator (40 R101 to R103). -/
def setAcc (v : Byte) (s : State) : State := { s with acc := v }

/-- Store a verify result (10 R28). -/
def setVerify (vm pv : Bool) (pb : Byte) (s : State) : State := { s with vmatch := vm, pvalid := pv, pval := pb }

/-- Store BUF. -/
def setBuf (m : Memory) (s : State) : State := { s with buf := m }

/-- STATUS write: write 1 to clear (42 R184). This is also how a recorded command error is left behind (60 R219). -/
def clearStatus (clrDone clrErr : Bool) (s : State) : State :=
  { s with
    done := s.done && !clrDone
    err := s.err && !clrErr
    errcode := if clrErr then 0x0#4 else s.errcode }

/-! ## Commands -/

/-- `raise CmdError(code)`: the first code is kept, `err` is set, nothing else changes (60 R214). -/
def commandError (e : CmdReject) (s : State) : State :=
  { s with errcode := if s.err then s.errcode else rejectCode e, err := true }

/-- `accept(W)` (41 R146). -/
def acceptCommand (w : Word) (c : Command) (s : State) : State :=
  { s with cmd := w, pending := some c, busy := true }

/-- A CMD word that reached an idle unit: accept it or reject it by the first failing check (41 R145). -/
def issueCommand (w : Word) (s : State) : State :=
  match checkCommand w with
  | .ok c => acceptCommand w c s
  | .error e => commandError e s

/-- The completion step's writes (41 R150): all result blocks at once, `busy <- 0`, `done <- 1`,
`pending <- none`. -/
def finishCommand (m : Memory) (s : State) : State :=
  { s with buf := m, busy := false, done := true, pending := none }

/-- Perform a mode over the command's blocks, in place (41 R147, R148): the input blocks are all read before any is
written. A range that no accepted command has is the command error of 60 R215 (log 6). -/
def completeCommand (mode : List Block → List Block) (sblk nbm1 : BitVec 2) (s : State) :
    Host.Outcome State Fault Refusal :=
  .next
    (if blocksInRange sblk nbm1 then
      finishCommand
        (s.buf.writeBlocks sblk.toNat (mode (s.buf.readBlocks sblk.toNat (blockCount nbm1)))) s
    else commandError .range s)

/-! ## Reset and inputs -/

/-- The reset step: every field of the record at its reset value (70 R240). -/
def resetDevice (s : State) : State :=
  { State.reset with held := s.held, resp := s.resp, events := s.events }

/-- The inputs that are still to come. -/
def withEvents (es : List Event) (s : State) : State := { s with events := es }

end Sys2Proof.Machine
end

