-- ==== Sys2Proof/Machine/Access.lean ====
section
/-! DEFINITION. The meanings of the register, buffer and constant accesses (spec 42 R181 to R190). -/

namespace Sys2Proof.Machine

/-- CMD_RD: the last accepted command word; never stalls (42 R181). -/
def execCmdRd (s : State) : Host.Outcome State Fault Refusal :=
  .next (respondRead s.cmd s)

/-- STATUS_RD: the STATUS word; reading clears nothing (42 R183). -/
def execStatusRd (s : State) : Host.Outcome State Fault Refusal :=
  .next (respondRead (statusWord s) s)

/-- STATUS_WR: write 1 to clear DONE, and ERR with ERRCODE (42 R184). -/
def execStatusWr (wdata : Word) (s : State) : Host.Outcome State Fault Refusal :=
  .next (respondWrite (clearStatus (clearsDone wdata) (clearsErr wdata) s))

/-- BUF_RD: held while a command runs, then BUF word `w` (42 R186). -/
def execBufRd (w : BitVec 4) (s : State) : Host.Outcome State Fault Refusal :=
  whenIdle (.bufRd w) (fun t => respondRead (t.buf.readWord w) t) s

/-- BUF_WR: held while a command runs, then stores the four bytes of BUF word `w` (42 R187). -/
def execBufWr (w : BitVec 4) (wdata : Word) (s : State) : Host.Outcome State Fault Refusal :=
  whenIdle (.bufWr w wdata) (fun t => respondWrite (setBuf (t.buf.writeWord w wdata) t)) s

/-- REF_RD: word `w` of `REF` (42 R188). -/
def execRefRd (w : BitVec 2) (s : State) : Host.Outcome State Fault Refusal :=
  .next (respondRead (constWord Config.ref w) s)

/-- AUTH1R_HDR_RD: word `w` of `AUTH1R_HDR` (42 R189). -/
def execAuth1rHdrRd (w : BitVec 2) (s : State) : Host.Outcome State Fault Refusal :=
  .next (respondRead (constWord Config.auth1rHdr w) s)

/-- AUTH2_HDR_RD: word `w` of `AUTH2_HDR` (42 R190). -/
def execAuth2HdrRd (w : BitVec 2) (s : State) : Host.Outcome State Fault Refusal :=
  .next (respondRead (constWord Config.auth2Hdr w) s)

end Sys2Proof.Machine
end

