-- ==== Sys2Proof/Machine/CbcUnit.lean ====
section
/-! DEFINITION. The meanings of the CBC unit's instructions: CMD_WR issues a command (spec 41 R145), CBC_ENC and
CBC_DEC are what the engine's completion step performs (41 R147, R148, R150). -/

namespace Sys2Proof.Machine

/-- CMD_WR: held while a command runs, then accepted or rejected; the response is OKAY in both cases (41 R145). -/
def execCmdWr (wdata : Word) (s : State) : Host.Outcome State Fault Refusal :=
  whenIdle (.cmdWr wdata) (fun t => respondWrite (issueCommand wdata t)) s

/-- CBC_ENC: `CBC_E` under the selected key and the zero IV, in place (41 R147). -/
def execCbcEnc (ksel : KeySel) (sblk nbm1 : BitVec 2) (s : State) : Host.Outcome State Fault Refusal :=
  completeCommand (cbcEncrypt (Config.cipherE (keyOf ksel)) zeroBlock) sblk nbm1 s

/-- CBC_DEC: `CBC_D` under the selected key and the zero IV, in place (41 R148). -/
def execCbcDec (ksel : KeySel) (sblk nbm1 : BitVec 2) (s : State) : Host.Outcome State Fault Refusal :=
  completeCommand (cbcDecrypt (Config.cipherD (keyOf ksel)) zeroBlock) sblk nbm1 s

end Sys2Proof.Machine
end

