-- ==== Sys2Proof/Machine/Checksum.lean ====
section
/-! DEFINITION. The meanings of the checksum unit's instructions (spec 40 R101 to R103, R105, R106, R110, R111). None
of them stalls. -/

namespace Sys2Proof.Machine

/-- CKS_ACC_WR: `acc <- wdata[7:0]` (40 R101). -/
def execCksAccWr (wdata : Word) (s : State) : Host.Outcome State Fault Refusal :=
  .next (respondWrite (setAcc (dataByte wdata) s))

/-- CKS_IN8: `acc <- (acc + wdata[7:0]) mod 256` (40 R102). -/
def execCksIn8 (wdata : Word) (s : State) : Host.Outcome State Fault Refusal :=
  .next (respondWrite (setAcc (s.acc + dataByte wdata) s))

/-- CKS_IN32: add the four bytes of `wdata` (40 R103). -/
def execCksIn32 (wdata : Word) (s : State) : Host.Outcome State Fault Refusal :=
  .next (respondWrite (setAcc
    (s.acc + byteLane wdata 0 + byteLane wdata 1 + byteLane wdata 2 + byteLane wdata 3) s))

/-- CKS_HEX_RD: `rdata <- format_word(acc)` (40 R105). -/
def execCksHexRd (s : State) : Host.Outcome State Fault Refusal :=
  .next (respondRead (formatWord s.acc) s)

/-- CKS_ACC_RD: `rdata <- zext_32(acc)` (40 R106). -/
def execCksAccRd (s : State) : Host.Outcome State Fault Refusal :=
  .next (respondRead (s.acc.setWidth 32) s)

/-- CKS_VFY_WR: compare and parse the claimed string against `acc` as it is now (40 R110). -/
def execCksVfyWr (wdata : Word) (s : State) : Host.Outcome State Fault Refusal :=
  .next (respondWrite (setVerify (vfyMatch s.acc wdata) (vfyPvalid wdata) (vfyPval wdata) s))

/-- CKS_VFY_RD: the last verify result (40 R111). -/
def execCksVfyRd (s : State) : Host.Outcome State Fault Refusal :=
  .next (respondRead (vfyWord s) s)

end Sys2Proof.Machine
end

