-- ==== Sys2Proof/Machine/Dispatch.lean ====
section
/-! DEFINITION. One arm per instruction. -/

namespace Sys2Proof.Machine

def exec (i : Instr) (s : State) : Host.Outcome State Fault Refusal :=
  match i with
  -- register, buffer and constant access
  | .cmdRd => Sys2Proof.Machine.execCmdRd s
  | .cmdWr wdata => Sys2Proof.Machine.execCmdWr wdata s
  | .statusRd => Sys2Proof.Machine.execStatusRd s
  | .statusWr wdata => Sys2Proof.Machine.execStatusWr wdata s
  -- checksum unit
  | .cksAccRd => Sys2Proof.Machine.execCksAccRd s
  | .cksAccWr wdata => Sys2Proof.Machine.execCksAccWr wdata s
  | .cksIn8 wdata => Sys2Proof.Machine.execCksIn8 wdata s
  | .cksIn32 wdata => Sys2Proof.Machine.execCksIn32 wdata s
  | .cksHexRd => Sys2Proof.Machine.execCksHexRd s
  | .cksVfyWr wdata => Sys2Proof.Machine.execCksVfyWr wdata s
  | .cksVfyRd => Sys2Proof.Machine.execCksVfyRd s
  -- buffer and constant windows
  | .bufRd w => Sys2Proof.Machine.execBufRd w s
  | .bufWr w wdata => Sys2Proof.Machine.execBufWr w wdata s
  | .refRd w => Sys2Proof.Machine.execRefRd w s
  | .auth1rHdrRd w => Sys2Proof.Machine.execAuth1rHdrRd w s
  | .auth2HdrRd w => Sys2Proof.Machine.execAuth2HdrRd w s
  -- the engine's operations
  | .cbcEnc ksel sblk nbm1 => Sys2Proof.Machine.execCbcEnc ksel sblk nbm1 s
  | .cbcDec ksel sblk nbm1 => Sys2Proof.Machine.execCbcDec ksel sblk nbm1 s

end Sys2Proof.Machine
end

