-- ==== Sys2Proof/Machine/Agents.lean ====
section
/-! DEFINITION. Which agent moves and what its move is (spec 20 R60, R66; 41 R150; 60 R210, R217; 70 R240, R242), and
how a word of the opcode table is put where the machine takes its next instruction. -/

namespace Sys2Proof.Machine

/-- The host's move: its transaction is checked and decoded (30 R84) before any stall (60 R213); an erroneous one
faults, any other runs. -/
def hostMove (t : Txn) (s : State) : Host.Outcome State Fault Refusal :=
  match decodeTxn t with
  | .error c => .fault (.busError c t.off)
  | .ok i => exec i s

/-- The engine's move, enabled while `busy = 1`: the completion step performs the pending command (41 R150). -/
def engineMove (s : State) : Host.Outcome State Fault Refusal :=
  match s.pending with
  | some c => exec c.toInstr s
  | none => .fault .engineWithoutCommand

/-- The reset input: refused while a host transaction is outstanding (70 R242). -/
def resetMove (s : State) : Host.Outcome State Fault Refusal :=
  match s.held with
  | some _ => .refused .resetWhileOutstanding
  | none => .next (resetDevice s)

/-- The CCE's move while transaction `i` is held: the engine completes the pending command (20 R66); once `busy = 0` the
transaction is performed on the state the completion left (20 R68). -/
def heldMove (i : Instr) (s : State) : Host.Outcome State Fault Refusal :=
  if s.busy then engineMove s else exec i (releaseHold s)

/-- A step while transaction `i` is held. A reset may come at any time, before the completion and between it and the held
transaction (70 R240, R242). Otherwise the CCE moves, using up a turn given to it: the host issues nothing more until it
has its response (20 R61), so its later transactions wait (log 3). -/
def heldStep (i : Instr) (s : State) : Host.Outcome State Fault Refusal :=
  match s.events with
  | .reset :: es => resetMove (withEvents es s)
  | .engine :: es => heldMove i (withEvents es s)
  | .host _ :: _ => heldMove i s
  | [] => heldMove i s

/-- A step with no transaction outstanding: the next input moves. An engine turn while `busy = 0` is no step of
the engine and passes (log 13). With no input left a pending command completes, which is the fairness of 41 R151 (log 2),
and an idle CCE stays as it is. -/
def freeStep (s : State) : Host.Outcome State Fault Refusal :=
  match s.events with
  | .host t :: es => hostMove t (withEvents es s)
  | .engine :: es => if s.busy then engineMove (withEvents es s) else .next (withEvents es s)
  | .reset :: es => resetMove (withEvents es s)
  | [] => if s.busy then engineMove s else .next s

/-- One step of the machine. -/
def machineStep (s : State) : Host.Outcome State Fault Refusal :=
  match s.held with
  | some i => heldStep i s
  | none => freeStep s

/-! ## Placing an instruction (log 11) -/

/-- The host issues `t` next. -/
def placeTransaction (t : Txn) (s : State) : State :=
  { s with held := none, events := .host t :: s.events }

/-- A CMD word comes to run by being accepted; the engine then has its turn. A word that no CMD write accepts is
written to CMD instead, which is where it is rejected (41 R145). -/
def placeCommandWord (w : Word) (s : State) : State :=
  match checkCommand w with
  | .ok c => withEvents (.engine :: s.events) (acceptCommand w c s)
  | .error _ => placeTransaction (selectorTxn 0x100#9 w) s

/-- Place a table word: 32 bits are a CMD word, fewer a bus selector with write data 0 (log 12). -/
def placeWord (s : State) (nbits w : Nat) : State :=
  if nbits = 32 then placeCommandWord (BitVec.ofNat 32 w) s
  else placeTransaction (selectorTxn (BitVec.ofNat 9 w) 0#32) s

end Sys2Proof.Machine
end

