-- ==== Sys2Proof/Machine/Step.lean ====
section
/-! DEFINITION. One step of the machine, and the placing of its next instruction; both are written in
Machine/Agents.lean. -/

namespace Sys2Proof.Machine

/-- One step: of the host, of the engine, or of the reset input (20 R60, 70 R240). -/
def step (s : State) : Host.Outcome State Fault Refusal := machineStep s

/-- The state whose very next step runs the instruction of a table word (log 11). -/
def State.withFetchWord (s : State) (nbits w : Nat) : State := placeWord s nbits w

end Sys2Proof.Machine
end

