-- ==== Sys2Proof/Machine/Auth.lean ====
section
/-! DEFINITION. The AUTH data transforms the host computes with the CBC unit (spec 41 R160 to R164, R166). The CCE does
not perform them as one operation: they are what its host is bound to. -/

namespace Sys2Proof.Machine

/-- `s[a:b)` (00 R9). -/
def slice (s : List Byte) (a b : Nat) : List Byte := (s.drop a).take (b - a)

/-- Bytes `[16j:16j+16)` of a byte sequence as a block; beyond its end the sequence gives no byte, and 0 stands in. -/
def blockAt (s : List Byte) (j : Nat) : Block := Vector.ofFn fun k : Fin 16 => s.getD (16 * j + k.val) 0x00#8

/-- The bytes of consecutive blocks, in order. -/
def blockBytes (bs : List Block) : List Byte := bs.flatMap Vector.toList

/-- The header check: `ch[0:16) = AUTH1R_HDR` (41 R160). -/
def authHeaderValid (ch : List Byte) : Bool := slice ch 0 16 == Config.auth1rHdr.toList

/-- `Q = CBC_D(KEY_D2H, 0^16, ch[16:64))`, 48 bytes (41 R161). -/
def authPlain (ch : List Byte) : List Byte :=
  blockBytes (cbcDecrypt (Config.cipherD Config.keyD2H) zeroBlock [blockAt ch 1, blockAt ch 2, blockAt ch 3])

/-- `Q` is valid when `Q[8:16) = 0^8`, `Q[16:32) = REF` and `Q[32:48) = 0^16` (41 R162). -/
def authBodyValid (q : List Byte) : Bool :=
  slice q 8 16 == List.replicate 8 0x00#8 && slice q 16 32 == Config.ref.toList
    && slice q 32 48 == List.replicate 16 0x00#8

/-- The response plaintext `Rp = Q[8:16) ‖ Q[0:8) ‖ 0^16` (41 R163). -/
def authResponsePlain (q : List Byte) : List Byte := slice q 8 16 ++ slice q 0 8 ++ List.replicate 16 0x00#8

/-- The AUTH2 body `AUTH2_HDR ‖ CBC_E(KEY_H2D, 0^16, Rp)` (41 R164). -/
def auth2Body (q : List Byte) : List Byte :=
  Config.auth2Hdr.toList
    ++ blockBytes (cbcEncrypt (Config.cipherE Config.keyH2D) zeroBlock
        [blockAt (authResponsePlain q) 0, blockAt (authResponsePlain q) 1])

/-- Why the exchange ends, in the order of the checks (41 R166). -/
inductive AuthFailure where
  | responseInvalid
  | headerInvalid
  | bodyInvalid
  deriving DecidableEq, Repr

/-- The reason text of a failure (41 R160, R162, R166). -/
def authReason : AuthFailure → String
  | .responseInvalid => "Auth1 response invalid"
  | .headerInvalid => "Auth1 response header invalid"
  | .bodyInvalid => "Auth1 response body invalid"

/-- The checks in order, the first that fails ending the exchange, and the AUTH2 body when none does (41 R160 to R166).
The argument is the decoded challenge, none when the response's status or token is not well-formed. -/
def authRespond : Option (List Byte) → Except AuthFailure (List Byte)
  | none => .error .responseInvalid
  | some ch =>
    if ch.length ≠ 64 then .error .responseInvalid
    else if !authHeaderValid ch then .error .headerInvalid
    else if !authBodyValid (authPlain ch) then .error .bodyInvalid
    else .ok (auth2Body (authPlain ch))

end Sys2Proof.Machine
end

