-- ==== Sys2Proof/Machine/Pseudo.lean ====
section
/-! DEFINITION. The pseudo-instructions of the host's syntax, each the list of transactions it stands for (spec 30 R89),
and the run of such a list with no completion or reset in between. `wait_idle` is a loop of the host around STATUS_RD and
has no list. -/

namespace Sys2Proof.Machine

/-- `cbc.enc k, s, n`, with `n = nblk`. -/
def pseudoCbcEnc (k : KeySel) (sblk nbm1 : BitVec 2) : List Instr := [.cmdWr (cmdWord .enc k sblk nbm1)]

/-- `cbc.dec k, s, n`. -/
def pseudoCbcDec (k : KeySel) (sblk nbm1 : BitVec 2) : List Instr := [.cmdWr (cmdWord .dec k sblk nbm1)]

/-- `st.clr`. -/
def pseudoStClr : List Instr := [.statusWr 0x00000006#32]

/-- `cks.clr`. -/
def pseudoCksClr : List Instr := [.cksAccWr 0x00000000#32]

/-- `cks.add8 b`. -/
def pseudoCksAdd8 (b : Byte) : List Instr := [.cksIn8 (b.setWidth 32)]

/-- `cks.add32 b0, b1, b2, b3`. -/
def pseudoCksAdd32 (b0 b1 b2 b3 : Byte) : List Instr := [.cksIn32 (wordOfBytes b0 b1 b2 b3)]

/-- `cks.vfyn c0, c1, len`. -/
def pseudoCksVfyn (c0 c1 : Byte) (len : BitVec 2) : List Instr := [.cksVfyWr (0#14 ++ len ++ c1 ++ c0)]

/-- `cks.vfy c0, c1`: a length of 2. -/
def pseudoCksVfy (c0 c1 : Byte) : List Instr := pseudoCksVfyn c0 c1 2#2

/-- `buf.ld16 j, B`: BUF word `4j + w` takes bytes `[4w:4w+4)` of `B`. -/
def pseudoBufLd16 (j : BitVec 2) (b : Block) : List Instr :=
  [.bufWr (j ++ 0#2) (constWord b 0#2), .bufWr (j ++ 1#2) (constWord b 1#2),
   .bufWr (j ++ 2#2) (constWord b 2#2), .bufWr (j ++ 3#2) (constWord b 3#2)]

/-- `buf.rd16 j`. -/
def pseudoBufRd16 (j : BitVec 2) : List Instr :=
  [.bufRd (j ++ 0#2), .bufRd (j ++ 1#2), .bufRd (j ++ 2#2), .bufRd (j ++ 3#2)]

/-- Instructions one after another, up to the first that does not answer a next state. -/
def execAll : List Instr → State → Host.Outcome State Fault Refusal
  | [], s => .next s
  | i :: is, s =>
    match exec i s with
    | .next t => execAll is t
    | .fault f => .fault f
    | .refused r => .refused r

end Sys2Proof.Machine
end

