-- ==== Sys2Proof/Safety.lean ====
section
/-! DEFINITION. What statements about the CCE are written in: the invariant of a state that a run can reach, and the
parts of the state an instruction leaves alone. -/

namespace Sys2Proof.Machine

/-- The instructions that stall while a command runs: BUF_RD, BUF_WR and CMD_WR (20 R66). -/
def stallsWhileBusy : Instr → Bool
  | .cmdWr _ | .bufRd _ | .bufWr _ _ => true
  | .cmdRd | .statusRd | .statusWr _ => false
  | .cksAccRd | .cksAccWr _ | .cksIn8 _ | .cksIn32 _ | .cksHexRd | .cksVfyWr _ | .cksVfyRd => false
  | .refRd _ | .auth1rHdrRd _ | .auth2HdrRd _ => false
  | .cbcEnc _ _ _ | .cbcDec _ _ _ => false

/-- The instructions that are reads of an offset (20 R65). -/
def isRead : Instr → Bool
  | .cmdRd | .statusRd | .cksAccRd | .cksHexRd | .cksVfyRd => true
  | .bufRd _ | .refRd _ | .auth1rHdrRd _ | .auth2HdrRd _ => true
  | .cmdWr _ | .statusWr _ | .cksAccWr _ | .cksIn8 _ | .cksIn32 _ | .cksVfyWr _ | .bufWr _ _ => false
  | .cbcEnc _ _ _ | .cbcDec _ _ _ => false

/-- The payload bytes an instruction adds to the accumulator, in lane order (40 R102, R103). -/
def bytesAdded : Instr → List Byte
  | .cksIn8 d => [byteLane d 0]
  | .cksIn32 d => [byteLane d 0, byteLane d 1, byteLane d 2, byteLane d 3]
  | .cmdRd | .cmdWr _ | .statusRd | .statusWr _ => []
  | .cksAccRd | .cksAccWr _ | .cksHexRd | .cksVfyWr _ | .cksVfyRd => []
  | .bufRd _ | .bufWr _ _ | .refRd _ | .auth1rHdrRd _ | .auth2HdrRd _ => []
  | .cbcEnc _ _ _ | .cbcDec _ _ _ => []

/-- A transaction of this direction, offset and data decodes to `r` when its size is 4, and gets the cause `SIZE` with
any other size (30 R84). -/
def DecodesTo (dir : Dir) (off : BitVec 8) (wdata : Word) (r : Except BusCause Instr) : Prop :=
  ∀ n, decodeTxn ⟨dir, off, n, wdata⟩ = if n = 4 then r else .error .size

/-- The character functions in numbers: `hexchar` (40 R104), `ishex` and `hexval` on `'0'` to `'9'`, `'A'` to `'F'` and
`'a'` to `'f'` (40 R107), `fold` on `'a'` to `'z'` (40 R108). -/
def CharacterCodes : Prop :=
  (∀ n : BitVec 4, (hexchar n).toNat = if n.toNat ≤ 9 then 0x30 + n.toNat else 0x41 + (n.toNat - 10))
    ∧ ∀ c : Byte,
      (ishex c = true ↔ 0x30 ≤ c.toNat ∧ c.toNat ≤ 0x39 ∨ 0x41 ≤ c.toNat ∧ c.toNat ≤ 0x46
          ∨ 0x61 ≤ c.toNat ∧ c.toNat ≤ 0x66)
        ∧ (0x30 ≤ c.toNat ∧ c.toNat ≤ 0x39 → (hexval c).toNat = c.toNat - 0x30)
        ∧ (0x41 ≤ c.toNat ∧ c.toNat ≤ 0x46 → (hexval c).toNat = c.toNat - 0x37)
        ∧ (0x61 ≤ c.toNat ∧ c.toNat ≤ 0x66 → (hexval c).toNat = c.toNat - 0x57)
        ∧ (fold c).toNat = if 0x61 ≤ c.toNat ∧ c.toNat ≤ 0x7A then c.toNat - 0x20 else c.toNat

/-- What every state of a run from reset satisfies. -/
structure Invariant (s : State) : Prop where
  /-- BUF is in its canonical form (log 10). -/
  bufCanonical : s.buf.wf
  /-- "`busy = 1` exactly when `pending` is not none" (10 R22). -/
  busyPending : s.busy = s.pending.isSome
  /-- "ERRCODE is `0x0` whenever ERR is 0", and a set ERR has a code (10 R26, 60 R215). -/
  errCode : s.err = false ↔ s.errcode = 0x0#4
  /-- ERRCODE is one of 0 to 3 (10 R26). -/
  codeLegal : s.errcode ≤ 0x3#4
  /-- CMD holds an accepted word, or 0 after reset (10 R23). -/
  cmdLegal : s.cmd = 0#32 ∨ ∃ c, checkCommand s.cmd = .ok c
  /-- The pending command is the one CMD holds (41 R146). -/
  pendingIsCmd : ∀ c, s.pending = some c → checkCommand s.cmd = .ok c
  /-- PVAL is `0x00` when PVALID is 0 (10 R28). -/
  pvalZero : s.pvalid = false → s.pval = 0x00#8
  /-- MATCH needs PVALID (40 R110). -/
  matchValid : s.vmatch = true → s.pvalid = true
  /-- Only a stalling transaction is ever held (20 R66). -/
  heldStalls : ∀ i, s.held = some i → stallsWhileBusy i = true

/-! ## Frames -/

/-- The checksum unit is unchanged. -/
def SameChecksumUnit (s t : State) : Prop :=
  t.acc = s.acc ∧ t.vmatch = s.vmatch ∧ t.pvalid = s.pvalid ∧ t.pval = s.pval

/-- The STATUS bits are unchanged. -/
def SameStatus (s t : State) : Prop :=
  t.busy = s.busy ∧ t.done = s.done ∧ t.err = s.err ∧ t.errcode = s.errcode

/-- The command register and the pending command are unchanged. -/
def SameCommand (s t : State) : Prop := t.cmd = s.cmd ∧ t.pending = s.pending

/-- Every byte of BUF outside `[lo, lo + len)` reads as before. -/
def SameBufOutside (lo len : Nat) (s t : State) : Prop :=
  ∀ i, i < lo ∨ lo + len ≤ i → t.buf.read i = s.buf.read i

/-- The CBC unit is unchanged: CMD, STATUS, the pending command and BUF. -/
def SameCbcUnit (s t : State) : Prop := SameStatus s t ∧ SameCommand s t ∧ t.buf = s.buf

/-- The whole record of 10 R22 is unchanged. -/
def SameDevice (s t : State) : Prop := SameChecksumUnit s t ∧ SameCbcUnit s t

/-- The hold and the inputs to come are unchanged. -/
def SameBus (s t : State) : Prop := t.held = s.held ∧ t.events = s.events

end Sys2Proof.Machine
end

