-- ==== Sys2Proof/Certificates/Slice0/Obligations.lean ====
section
/-! DEFINITION. The statements about the CCE that provers are asked to settle, each formalising rules of the spec. A
field of a word is written `w.extractLsb hi lo`, the spec's `w[hi:lo]`. -/

open Sys2Proof Sys2Proof.Machine

/-! ## Encoding -/

/-- Words written out bit by bit from 30 R85 and R86 decode to what they stand for. -/
def Obligations.WrittenOutWordsDecode : Prop :=
  decode (.bus 0b000000100#9 0#32) = .ok .statusRd
    ∧ decode (.bus 0b100000000#9 0x00002112#32) = .ok (.cmdWr 0x00002112#32)
    ∧ decode (.bus 0b100011000#9 0x00023834#32) = .ok (.cksVfyWr 0x00023834#32)
    ∧ decode (.bus 0b101000100#9 0x88776655#32) = .ok (.bufWr 1#4 0x88776655#32)
    ∧ decode (.bus 0b010011100#9 0#32) = .ok (.auth1rHdrRd 3#2)
    ∧ decode (.cmd 0b00000000000000000011000000010001#32) = .ok (.cbcEnc .d2h 0#2 3#2)
    ∧ decode (.cmd 0b00000000000000000010000100010010#32) = .ok (.cbcDec .d2h 1#2 2#2)

/-- Decoding an encoded instruction gives it back, for every instruction with every operand (30 R85, R86). -/
def Obligations.DecodeOfEncodeIsTheInstruction : Prop :=
  ∀ i : Instr, decode (encode i) = .ok i

/-- A word that decodes is the encoding of what it decodes to: no bit of a selector or of a CMD word is dropped, and
`wdata` is kept by a write and not used by a read (20 R61, 30 R85, R86). -/
def Obligations.EncodeOfDecodedIsTheWord : Prop :=
  (∀ sel wdata i, decode (.bus sel wdata) = .ok i →
      encode i = .bus sel (if sel.extractLsb 8 8 = 1#1 then wdata else 0#32))
    ∧ ∀ w i, decode (.cmd w) = .ok i → encode i = .cmd w

/-- `cmd_word(op, ksel, sblk, nblk) = ((nblk-1) << 12) | (sblk << 8) | (ksel << 4) | op` (30 R82). -/
def Obligations.CommandWordIsTheEncodingFunction : Prop :=
  ∀ op ksel sblk nbm1,
    (cmdWord op ksel sblk nbm1).toNat =
      ((blockCount nbm1 - 1) <<< 12) ||| (sblk.toNat <<< 8)
        ||| ((match ksel with | .h2d => 0 | .d2h => 1) <<< 4) ||| (match op with | .enc => 1 | .dec => 2)

/-- A CMD word is CBC_ENC or CBC_DEC exactly when the row's match and mask say so, with its operands in the row's
fields (30 R86, R83). -/
def Obligations.CommandRowsMatchByMask : Prop :=
  ∀ w : Word,
    (w &&& 0xFFFFCCEF#32 = 0x00000001#32 ↔ ∃ k s n, decode (.cmd w) = .ok (.cbcEnc k s n))
      ∧ (w &&& 0xFFFFCCEF#32 = 0x00000002#32 ↔ ∃ k s n, decode (.cmd w) = .ok (.cbcDec k s n))
      ∧ ∀ k s n, decode (.cmd w) = .ok (.cbcEnc k s n) ∨ decode (.cmd w) = .ok (.cbcDec k s n) →
          (k = .d2h ↔ w.extractLsb 4 4 = 1#1) ∧ s = w.extractLsb 9 8 ∧ n = w.extractLsb 13 12

/-- A transaction that gets ERROR faults with the first cause of the order SIZE, ALIGN, RESERVED, DIRECTION, before any
stall (also while a command runs), and every other transaction decodes (60 R213, R210). -/
def Obligations.BusErrorsComeInOrderBeforeAnyStall : Prop :=
  ∀ (s : State) (t : Txn) (es : List Event), s.held = none → s.events = .host t :: es →
    (t.size ≠ 4 → step s = .fault (.busError .size t.off))
      ∧ (t.size = 4 → t.off.extractLsb 1 0 ≠ 0b00#2 → step s = .fault (.busError .align t.off))
      ∧ (t.size = 4 → t.off.extractLsb 1 0 = 0b00#2 →
          (0x1C ≤ t.off.toNat ∧ t.off.toNat ≤ 0x3C ∨ 0xB0 ≤ t.off.toNat ∧ t.off.toNat ≤ 0xFC) →
          step s = .fault (.busError .reserved t.off))
      ∧ (t.size = 4 → t.off.extractLsb 1 0 = 0b00#2 →
          (t.dir = .read ∧ (t.off = 0x0C#8 ∨ t.off = 0x10#8)
            ∨ t.dir = .write ∧ (t.off = 0x14#8 ∨ 0x80 ≤ t.off.toNat ∧ t.off.toNat ≤ 0xAC)) →
          step s = .fault (.busError .direction t.off))
      ∧ (t.size = 4 → t.off.extractLsb 1 0 = 0b00#2 →
          (t.off.toNat ≤ 0x18 ∨ 0x40 ≤ t.off.toNat ∧ t.off.toNat ≤ 0xAC) →
          ¬ (t.dir = .read ∧ (t.off = 0x0C#8 ∨ t.off = 0x10#8)) →
          ¬ (t.dir = .write ∧ (t.off = 0x14#8 ∨ 0x80 ≤ t.off.toNat ∧ t.off.toNat ≤ 0xAC)) →
          ∃ i u, decodeTxn t = .ok i ∧ step s = .next u)

/-- A host address reaches the CCE exactly when it lies in the 256 bytes from `BASE`, with `off = a - BASE`
(20 R62). -/
def Obligations.WindowOffsetIsAddressMinusBase : Prop :=
  (Config.base.toNat % 256 = 0)
    ∧ ∀ a : BitVec 32,
      (Config.base.toNat ≤ a.toNat ∧ a.toNat < Config.base.toNat + 256 →
          ∃ off, windowOffset a = some off ∧ off.toNat = a.toNat - Config.base.toNat)
        ∧ (¬ (Config.base.toNat ≤ a.toNat ∧ a.toNat < Config.base.toNat + 256) → windowOffset a = none)

/-! ## Steps -/

/-- With no transaction outstanding, the host's transaction runs the instruction it decodes to; the step around it only
takes the input off the list (20 R60; log 1). -/
def Obligations.StepRunsTheDecodedTransaction : Prop :=
  ∀ s t es i, s.held = none → s.events = .host t :: es → decodeTxn t = .ok i →
    step s = exec i { s with events := es }

/-- While `busy = 1`, the engine's turn runs the pending command: when it is given the turn, when the inputs are
exhausted, and when the host is held and has only further transactions (41 R150, 20 R66; log 1, log 2). -/
def Obligations.StepRunsThePendingCommand : Prop :=
  ∀ s c, s.busy = true → s.pending = some c →
    (∀ es, s.events = .engine :: es → step s = exec c.toInstr { s with events := es })
      ∧ (s.events = [] → step s = exec c.toInstr s)
      ∧ ∀ i t es, s.held = some i → s.events = .host t :: es → step s = exec c.toInstr s

/-- Once `busy = 0` the held transaction is performed on the state the completion left, unless a reset comes first
(20 R66, R68; 70 R240). Which of the two comes is the input list's, and a turn given to the engine is used up by it: the
model's choice (log 1, log 3). -/
def Obligations.StepPerformsTheHeldTransaction : Prop :=
  ∀ s i, s.held = some i → s.busy = false →
    (s.events = [] → step s = exec i { s with held := none })
      ∧ (∀ t es, s.events = .host t :: es → step s = exec i { s with held := none })
      ∧ (∀ es, s.events = .engine :: es → step s = exec i { s with held := none, events := es })
      ∧ ∀ es, s.events = .reset :: es → step s = .refused .resetWhileOutstanding

/-- A placed table word is the instruction the very next step runs: a bus selector as the host's transaction, an
accepted command as the pending command (the model's convention, log 11). -/
def Obligations.PlacedTableWordRunsNext : Prop :=
  (∀ (s : State) (w : Nat) (i : Instr), decodeTableWord 16 w = some i →
      step (s.withFetchWord 16 w) = exec i { s with held := none })
    ∧ ∀ (s : State) (w : Nat) (c : Command), checkCommand (BitVec.ofNat 32 w) = .ok c →
      step (s.withFetchWord 32 w) =
        exec c.toInstr { s with cmd := BitVec.ofNat 32 w, pending := some c, busy := true }

/-- With no input and no command the CCE does nothing, and an engine turn with no command changes nothing else
(10 R21, 41 R150; log 2, log 13). -/
def Obligations.IdleStepChangesNothing : Prop :=
  ∀ s, s.held = none → s.busy = false →
    (s.events = [] → step s = .next s)
      ∧ ∀ es, s.events = .engine :: es → step s = .next { s with events := es }

/-- The reset step puts every field of the record at its reset value, a pending command being abandoned; the last
response and the later inputs are the bus side's and stay (70 R240, R242; log 4). -/
def Obligations.ResetStepSetsEveryField : Prop :=
  ∀ s es, s.held = none → s.events = .reset :: es →
    step s = .next
      { cmd := 0x00000000#32, busy := false, done := false, err := false, errcode := 0x0#4, acc := 0x00#8,
        vmatch := false, pvalid := false, pval := 0x00#8, buf := [], pending := none, held := none,
        resp := s.resp, events := es }

/-- A reset while a host transaction is held is refused, before and after the completion it waits for, and no step
follows it (70 R240, R242). -/
def Obligations.ResetWhileHeldIsRefused : Prop :=
  ∀ s i es, s.held = some i → s.events = .reset :: es →
    step s = .refused .resetWhileOutstanding

/-- The launch state has every field at its reset value, every byte of BUF among them (10 R22). -/
def Obligations.ResetStateHoldsTheResetValues : Prop :=
  State.reset.cmd = 0x00000000#32 ∧ State.reset.busy = false ∧ State.reset.done = false
    ∧ State.reset.err = false ∧ State.reset.errcode = 0x0#4 ∧ State.reset.acc = 0x00#8
    ∧ State.reset.vmatch = false ∧ State.reset.pvalid = false ∧ State.reset.pval = 0x00#8
    ∧ (∀ i, State.reset.buf.read i = 0x00#8) ∧ State.reset.pending = none

/-- The invariant holds at reset. -/
def Obligations.InvariantAtReset : Prop := Invariant State.reset

/-- Every step keeps the invariant: `busy` and `pending` agree, CMD holds an accepted word or 0 and the pending command
is its decoding, ERRCODE is 0 exactly while ERR is 0 and never above 3, PVAL and MATCH need PVALID, only a stalling
transaction is held, and BUF stays in its canonical form (10 R22, R23, R26, R28; 20 R66; log 10). -/
def Obligations.StepKeepsTheInvariant : Prop :=
  ∀ s t, Invariant s → step s = .next t → Invariant t

/-- A step from an invariant state stops only on a transaction that gets ERROR, or on a reset while a transaction is
held (60 R210, 70 R242). -/
def Obligations.StepStopsOnlyOnErrorOrReset : Prop :=
  ∀ s, Invariant s →
    (∃ t, step s = .next t)
      ∨ (∃ t es c, s.held = none ∧ s.events = .host t :: es ∧ decodeTxn t = .error c
          ∧ step s = .fault (.busError c t.off))
      ∨ ∃ i es, s.held = some i ∧ s.events = .reset :: es
          ∧ step s = .refused .resetWhileOutstanding

/-- The three ends of a pending command. From an invariant state with `busy = 1`, after at most as many steps as there
are inputs, during which it stays pending and BUF unchanged, the next step completes it (`done = 1`, nothing pending),
or abandons it by a reset that finds nothing held (every field of the record at its reset value, `done = 0`), or stops
the run on a transaction that gets ERROR or on a reset while a transaction is held (41 R150, R151; 60 R210; 70 R242,
R254). That the completion comes when the inputs are exhausted is the model's fairness (log 2). -/
def Obligations.PendingCommandCompletesOrIsAbandonedOrStopped : Prop :=
  ∀ s : State, Invariant s → s.busy = true →
    ∃ k u, k ≤ s.events.length ∧ core.run k s = .next u ∧ u.busy = true ∧ u.pending = s.pending ∧ u.buf = s.buf
      ∧ ((∃ c es t, s.pending = some c ∧ step u = exec c.toInstr { u with events := es } ∧ step u = .next t
            ∧ t.busy = false ∧ t.done = true ∧ t.pending = none)
        ∨ (∃ es, u.held = none ∧ u.events = .reset :: es
            ∧ step u = .next { State.reset with resp := u.resp, events := es })
        ∨ (∃ x es c, u.held = none ∧ u.events = .host x :: es ∧ decodeTxn x = .error c
            ∧ step u = .fault (.busError c x.off))
        ∨ ∃ i es, u.held = some i ∧ u.events = .reset :: es ∧ step u = .refused .resetWhileOutstanding)

/-- With neither a reset nor an erroneous transaction among the inputs a pending command does complete, within one step
more than there are inputs (41 R150, R151; the model's fairness, log 2). -/
def Obligations.PendingCommandCompletesWithoutStop : Prop :=
  ∀ s : State, Invariant s → s.busy = true →
    (∀ e ∈ s.events, e = .engine ∨ ∃ t i, e = .host t ∧ decodeTxn t = .ok i) →
    ∃ k t, k ≤ s.events.length + 1 ∧ core.run k s = .next t ∧ t.busy = false ∧ t.done = true ∧ t.pending = none

/-- Commands are serialised: a CMD write issued while a command runs is held, the running command completes, and the
word is then accepted or rejected on the state that completion left (70 R255, 41 R145). -/
def Obligations.CommandsAreSerialised : Prop :=
  ∀ (s : State) (c : Command) (w : Word) (ts : List Txn),
    s.busy = true → s.pending = some c → c.inRange = true → s.held = none →
    s.events = .host ⟨.write, 0x00#8, 4, w⟩ :: ts.map .host →
    ∃ u, exec c.toInstr { s with held := some (.cmdWr w), resp := none, events := ts.map .host } = .next u
      ∧ u.busy = false
      ∧ core.run 3 s = exec (.cmdWr w) { u with held := none }

/-- Both orders of a pending completion and a non-stalling transaction are allowed: a STATUS read that the host makes
first sees BUSY = 1 with DONE as it stood, one made after the engine's turn sees BUSY = 0 and DONE = 1 (60 R217, 70
R251; log 1). -/
def Obligations.StatusReadComesBeforeOrAfterTheCompletion : Prop :=
  ∀ (s : State) (c : Command) (d : Word) (es : List Event),
    s.busy = true → s.pending = some c → c.inRange = true → s.held = none →
    (∃ t v, core.run 1 { s with events := .host ⟨.read, 0x04#8, 4, d⟩ :: es } = .next t
        ∧ t.resp = some (.readData v) ∧ v.extractLsb 0 0 = 1#1 ∧ v.extractLsb 1 1 = BitVec.ofBool s.done
        ∧ t.pending = some c ∧ t.events = es)
      ∧ ∃ t v, core.run 2 { s with events := .engine :: .host ⟨.read, 0x04#8, 4, d⟩ :: es } = .next t
        ∧ t.resp = some (.readData v) ∧ v.extractLsb 0 0 = 0#1 ∧ v.extractLsb 1 1 = 1#1
        ∧ t.pending = none ∧ t.events = es

/-! ## Checksum unit -/

/-- `checksum(p)` is the sum of all byte values modulo 256, 0 for the empty sequence (40 R100). -/
def Obligations.ChecksumIsTheSumModulo256 : Prop :=
  checksum [] = 0x00#8 ∧ ∀ p : List Byte, (checksum p).toNat = (p.map BitVec.toNat).sum % 256

/-- CKS_ACC_WR loads `wdata[7:0]` and changes nothing else, in every state (40 R101). -/
def Obligations.AccumulatorWriteLoadsTheLowByte : Prop :=
  ∀ (s : State) (d : Word),
    DecodesTo .write 0x08#8 d (.ok (.cksAccWr d))
      ∧ exec (.cksAccWr d) s = .next { s with acc := d.extractLsb 7 0, resp := some .writeDone }

/-- CKS_IN8 adds `wdata[7:0]` modulo 256 and changes nothing else, in every state; a read of its offset is ERROR
DIRECTION (40 R102). -/
def Obligations.ByteAddAddsTheLowByte : Prop :=
  ∀ (s : State) (d : Word),
    DecodesTo .write 0x0C#8 d (.ok (.cksIn8 d))
      ∧ DecodesTo .read 0x0C#8 d (.error .direction)
      ∧ exec (.cksIn8 d) s = .next
          { s with
            acc := BitVec.ofNat 8 ((s.acc.toNat + (d.extractLsb 7 0).toNat) % 256)
            resp := some .writeDone }

/-- CKS_IN32 adds the four bytes of `wdata` modulo 256 and changes nothing else, in every state; a read of its offset
is ERROR DIRECTION (40 R103). -/
def Obligations.WordAddAddsFourBytes : Prop :=
  ∀ (s : State) (d : Word),
    DecodesTo .write 0x10#8 d (.ok (.cksIn32 d))
      ∧ DecodesTo .read 0x10#8 d (.error .direction)
      ∧ exec (.cksIn32 d) s = .next
          { s with
            acc := BitVec.ofNat 8
              ((s.acc.toNat + (d.extractLsb 7 0).toNat + (d.extractLsb 15 8).toNat
                + (d.extractLsb 23 16).toNat + (d.extractLsb 31 24).toNat) % 256)
            resp := some .writeDone }

/-- One CKS_IN32 write equals four CKS_IN8 writes of its bytes in any order (40 R103). -/
def Obligations.WordAddEqualsFourByteAddsInAnyOrder : Prop :=
  ∀ (s : State) (b0 b1 b2 b3 : Byte) (l : List Byte), l.Perm [b0, b1, b2, b3] →
    execAll (l.flatMap pseudoCksAdd8) s = execAll (pseudoCksAdd32 b0 b1 b2 b3) s

/-- CKS_HEX_RD answers the two uppercase hex digits of `acc`, the high digit in bits [7:0] and the low one in bits
[15:8], and changes nothing else, in every state; a write of its offset is ERROR DIRECTION (40 R105, R104). -/
def Obligations.HexReadSpellsTheAccumulator : Prop :=
  ∀ (s : State) (d : Word),
    DecodesTo .read 0x14#8 d (.ok .cksHexRd)
      ∧ DecodesTo .write 0x14#8 d (.error .direction)
      ∧ ∃ v : Word, exec .cksHexRd s = .next { s with resp := some (.readData v) }
        ∧ v.extractLsb 31 16 = 0#16
        ∧ (v.extractLsb 7 0).toNat =
            (if s.acc.toNat / 16 ≤ 9 then 0x30 + s.acc.toNat / 16 else 0x41 + (s.acc.toNat / 16 - 10))
        ∧ (v.extractLsb 15 8).toNat =
            (if s.acc.toNat % 16 ≤ 9 then 0x30 + s.acc.toNat % 16 else 0x41 + (s.acc.toNat % 16 - 10))

/-- CKS_ACC_RD answers `acc`, bits [31:8] zero, and changes nothing else, in every state (40 R106). -/
def Obligations.AccumulatorReadAnswersTheAccumulator : Prop :=
  ∀ (s : State) (d : Word),
    DecodesTo .read 0x08#8 d (.ok .cksAccRd)
      ∧ exec .cksAccRd s = .next { s with resp := some (.readData (0#24 ++ s.acc)) }

/-- CKS_VFY_WR with a claimed length of 2 compares the folded characters with the digits of `acc` and parses them; with
any other length all three results are 0. Nothing else changes, `acc` least of all, in every state (40 R110). The
character functions are those of 40 R104, R107 and R108, in numbers, so every spelling of the digits of `acc`, upper or
lower case, matches. -/
def Obligations.VerifyWriteComparesAndParses : Prop :=
  ∀ (s : State) (d : Word),
    DecodesTo .write 0x18#8 d (.ok (.cksVfyWr d))
      ∧ exec (.cksVfyWr d) s = .next
          { s with
            vmatch := decide (d.extractLsb 17 16 = 2#2
              ∧ fold (d.extractLsb 7 0) = hexchar (s.acc.extractLsb 7 4)
              ∧ fold (d.extractLsb 15 8) = hexchar (s.acc.extractLsb 3 0))
            pvalid := decide (d.extractLsb 17 16 = 2#2
              ∧ ishex (d.extractLsb 7 0) = true ∧ ishex (d.extractLsb 15 8) = true)
            pval :=
              if d.extractLsb 17 16 = 2#2 ∧ ishex (d.extractLsb 7 0) = true ∧ ishex (d.extractLsb 15 8) = true
              then 16#8 * hexval (d.extractLsb 7 0) + hexval (d.extractLsb 15 8) else 0x00#8
            resp := some .writeDone }
      ∧ CharacterCodes
      ∧ ∀ c0 c1 : Byte,
        c0 = hexchar (s.acc.extractLsb 7 4)
            ∨ 0x61 ≤ c0.toNat ∧ c0.toNat = (hexchar (s.acc.extractLsb 7 4)).toNat + 0x20 ∧ c0.toNat ≤ 0x66 →
        c1 = hexchar (s.acc.extractLsb 3 0)
            ∨ 0x61 ≤ c1.toNat ∧ c1.toNat = (hexchar (s.acc.extractLsb 3 0)).toNat + 0x20 ∧ c1.toNat ≤ 0x66 →
        ∃ t, exec (.cksVfyWr (0#14 ++ 2#2 ++ c1 ++ c0)) s = .next t
          ∧ t.vmatch = true ∧ t.pvalid = true ∧ t.pval = s.acc

/-- After a verify, MATCH is 1 exactly when PVALID is 1 and PVAL equals `acc` (the law of 40 R110). -/
def Obligations.MatchIsValidAndEqualToTheAccumulator : Prop :=
  ∀ (s t : State) (d : Word), exec (.cksVfyWr d) s = .next t →
    t.vmatch = (t.pvalid && t.pval == s.acc) ∧ t.acc = s.acc

/-- CKS_VFY_RD answers `{16'b0, pval, 6'b0, pvalid, vmatch}` and changes nothing else, in every state
(40 R111). -/
def Obligations.VerifyReadAnswersTheResult : Prop :=
  ∀ (s : State) (d : Word),
    DecodesTo .read 0x18#8 d (.ok .cksVfyRd)
      ∧ ∃ v : Word, exec .cksVfyRd s = .next { s with resp := some (.readData v) }
        ∧ v.extractLsb 31 16 = 0#16 ∧ v.extractLsb 15 8 = s.pval ∧ v.extractLsb 7 2 = 0#6
        ∧ v.extractLsb 1 1 = BitVec.ofBool s.pvalid ∧ v.extractLsb 0 0 = BitVec.ofBool s.vmatch

/-- `verify(p, claimed)` holds exactly when the claimed string has length 2 and its folded characters are those of
`format(checksum(p))`; equivalently when `parse(claimed)` is defined and equals `checksum(p)` (40 R109). `parse` is
defined on exactly two hex digits, and the character functions are those of 40 R104, R107 and R108, in numbers. -/
def Obligations.VerifyIsParseEqualToTheChecksum : Prop :=
  ∀ p claimed : List Byte,
    (verify p claimed = true ↔
        ∃ c0 c1, claimed = [c0, c1] ∧ [fold c0, fold c1] = Sys2Proof.Machine.format (checksum p))
      ∧ (verify p claimed = true ↔ parse claimed = some (checksum p))
      ∧ (∀ b, parse claimed = some b ↔ ∃ c0 c1, claimed = [c0, c1] ∧ ishex c0 = true ∧ ishex c1 = true
          ∧ b.toNat = 16 * (hexval c0).toNat + (hexval c1).toNat)
      ∧ CharacterCodes

/-- Parsing a formatted byte gives it back, and a payload verifies against its own formatted checksum
(40 R104, R107, R109; 95 W1). -/
def Obligations.FormattedChecksumVerifies : Prop :=
  (∀ b : Byte, parse (Sys2Proof.Machine.format b) = some b)
    ∧ ∀ p : List Byte, verify p (Sys2Proof.Machine.format (checksum p)) = true

/-- Clearing the accumulator and feeding a payload by any grouping into CKS_IN8 and CKS_IN32 writes, with any other
instructions in between but CKS_ACC_WR (stalled ones, commands and completions among them), leaves
`acc = checksum(p)`; a CKS_HEX read then answers `format_word(checksum(p))`, and a CKS_VFY write of a claimed string,
its length clipped to 3, gives `vmatch = verify(p, claimed)` (40 R112). -/
def Obligations.FeedingAPayloadComputesItsChecksum : Prop :=
  ∀ (s : State) (is : List Instr), (∀ i ∈ is, ∀ d, i ≠ .cksAccWr d) →
    ∃ t, execAll (pseudoCksClr ++ is) s = .next t
      ∧ t.acc = checksum (is.flatMap bytesAdded)
      ∧ exec .cksHexRd t = .next { t with resp := some (.readData (formatWord (checksum (is.flatMap bytesAdded)))) }
      ∧ ∀ claimed : List Byte, ∃ u,
          execAll (pseudoCksVfyn (claimed.getD 0 0x00#8) (claimed.getD 1 0x00#8)
            (BitVec.ofNat 2 (min claimed.length 3))) t = .next u
          ∧ u.vmatch = verify (is.flatMap bytesAdded) claimed

/-! ## CBC mode -/

/-- CBC encryption is its definition, block by block: `C_0 = E_k(P_0 xor iv)`, `C_i = E_k(P_i xor C_{i-1})`
(41 R142). -/
def Obligations.CbcEncryptionIsItsDefinition : Prop :=
  ∀ (k iv : Block) (ps : List Block),
    let cs := cbcEncrypt (Config.cipherE k) iv ps
    cs.length = ps.length
      ∧ (∀ p, ps[0]? = some p → cs[0]? = some (Config.cipherE k (xor16 p iv)))
      ∧ ∀ i p c, ps[i + 1]? = some p → cs[i]? = some c →
          cs[i + 1]? = some (Config.cipherE k (xor16 p c))

/-- CBC decryption is its definition, block by block: `P_0 = D_k(C_0) xor iv`, `P_i = D_k(C_i) xor C_{i-1}` with
`C_{i-1}` the input block (41 R143). -/
def Obligations.CbcDecryptionIsItsDefinition : Prop :=
  ∀ (k iv : Block) (cs : List Block),
    let ps := cbcDecrypt (Config.cipherD k) iv cs
    ps.length = cs.length
      ∧ (∀ c, cs[0]? = some c → ps[0]? = some (xor16 (Config.cipherD k c) iv))
      ∧ ∀ i c c', cs[i + 1]? = some c → cs[i]? = some c' →
          ps[i + 1]? = some (xor16 (Config.cipherD k c) c')

/-- CBC decryption and encryption under one key and IV undo each other, both ways, and so do the two functions of the
cipher (41 R144 (a), R140). -/
def Obligations.CbcModesAreInverse : Prop :=
  (∀ k b, Config.cipherD k (Config.cipherE k b) = b ∧ Config.cipherE k (Config.cipherD k b) = b)
    ∧ ∀ (k iv : Block) (bs : List Block),
      cbcDecrypt (Config.cipherD k) iv (cbcEncrypt (Config.cipherE k) iv bs) = bs
        ∧ cbcEncrypt (Config.cipherE k) iv (cbcDecrypt (Config.cipherD k) iv bs) = bs

/-- Output block `i` of CBC encryption depends on input blocks `0..i` only, that of CBC decryption on input blocks
`i-1` and `i` only (41 R144 (b)). -/
def Obligations.CbcBlocksDependOnEarlierInputOnly : Prop :=
  ∀ (k iv : Block) (xs ys : List Block) (i : Nat), i < xs.length → i < ys.length →
    ((∀ j, j ≤ i → xs[j]? = ys[j]?) →
        (cbcEncrypt (Config.cipherE k) iv xs)[i]? = (cbcEncrypt (Config.cipherE k) iv ys)[i]?)
      ∧ (xs[i]? = ys[i]? → (∀ j, j + 1 = i → xs[j]? = ys[j]?) →
        (cbcDecrypt (Config.cipherD k) iv xs)[i]? = (cbcDecrypt (Config.cipherD k) iv ys)[i]?)

/-- With the zero IV one block is the bare cipher; any IV is reached by xoring it into the first block; and a chain is
continued across commands by xoring the last ciphertext block into the next first block (41 R144 (c), (d), (e)). -/
def Obligations.CbcChainsThroughTheZeroIv : Prop :=
  ∀ k : Block,
    (∀ b, cbcEncrypt (Config.cipherE k) zeroBlock [b] = [Config.cipherE k b]
        ∧ cbcDecrypt (Config.cipherD k) zeroBlock [b] = [Config.cipherD k b])
      ∧ (∀ iv p ps, cbcEncrypt (Config.cipherE k) iv (p :: ps)
          = cbcEncrypt (Config.cipherE k) zeroBlock (xor16 p iv :: ps))
      ∧ ∀ p q ps, cbcEncrypt (Config.cipherE k) zeroBlock (p :: q :: ps)
          = cbcEncrypt (Config.cipherE k) zeroBlock [p]
            ++ cbcEncrypt (Config.cipherE k) zeroBlock (xor16 q (Config.cipherE k p) :: ps)

/-! ## CBC unit -/

/-- A CMD write while a command runs is held. To an idle unit: nonzero reserved bits reject it with code 1, else OP
`00` or `11` with code 2, else `sblk + nblk > 4` with code 3, the first code being kept while ERR is 1; else the word
is stored, its fields become the pending command and `busy` is set. The response is OKAY in each case and nothing else
changes (41 R145, R146; 20 R66; 60 R214, R215). -/
def Obligations.CmdWriteAcceptsOrRejects : Prop :=
  ∀ (s : State) (w : Word),
    DecodesTo .write 0x00#8 w (.ok (.cmdWr w))
      ∧ (s.busy = true → exec (.cmdWr w) s = .next { s with held := some (.cmdWr w), resp := none })
      ∧ (s.busy = false → exec (.cmdWr w) s = .next
        (if w.extractLsb 31 14 ≠ 0#18 ∨ w.extractLsb 11 10 ≠ 0#2 ∨ w.extractLsb 7 5 ≠ 0#3
            ∨ w.extractLsb 3 2 ≠ 0#2 then
          { s with errcode := if s.err then s.errcode else 0x1#4, err := true, resp := some .writeDone }
        else if w.extractLsb 1 0 = 0b00#2 ∨ w.extractLsb 1 0 = 0b11#2 then
          { s with errcode := if s.err then s.errcode else 0x2#4, err := true, resp := some .writeDone }
        else if 4 < (w.extractLsb 9 8).toNat + ((w.extractLsb 13 12).toNat + 1) then
          { s with errcode := if s.err then s.errcode else 0x3#4, err := true, resp := some .writeDone }
        else
          { s with
            cmd := w
            busy := true
            pending := some
              { op := if w.extractLsb 1 0 = 0b01#2 then .enc else .dec
                ksel := if w.extractLsb 4 4 = 1#1 then .d2h else .h2d
                sblk := w.extractLsb 9 8
                nbm1 := w.extractLsb 13 12 }
            resp := some .writeDone }))

/-- CBC_ENC, performed by the completion step: the command's blocks become their CBC encryption under the selected key
and the zero IV, every other byte of BUF reads as before, `busy` is 0, `done` is 1, nothing is pending, and nothing else
changes (41 R147, R149, R150). -/
def Obligations.EncryptCommandEncryptsItsBlocks : Prop :=
  ∀ (s : State) (k : KeySel) (sb nb : BitVec 2), sb.toNat + (nb.toNat + 1) ≤ 4 →
    decode (.cmd (cmdWord .enc k sb nb)) = .ok (.cbcEnc k sb nb) ∧ ∃ m : Memory,
      exec (.cbcEnc k sb nb) s = .next { s with buf := m, busy := false, done := true, pending := none }
      ∧ m.readBlocks sb.toNat (nb.toNat + 1) =
          cbcEncrypt (Config.cipherE (match k with | .h2d => Config.keyH2D | .d2h => Config.keyD2H)) zeroBlock
            (s.buf.readBlocks sb.toNat (nb.toNat + 1))
      ∧ SameBufOutside (16 * sb.toNat) (16 * (nb.toNat + 1)) s { s with buf := m }

/-- CBC_DEC, performed by the completion step: the command's blocks become their CBC decryption under the selected key
and the zero IV, every other byte of BUF reads as before, `busy` is 0, `done` is 1, nothing is pending, and nothing else
changes (41 R148, R149, R150). -/
def Obligations.DecryptCommandDecryptsItsBlocks : Prop :=
  ∀ (s : State) (k : KeySel) (sb nb : BitVec 2), sb.toNat + (nb.toNat + 1) ≤ 4 →
    decode (.cmd (cmdWord .dec k sb nb)) = .ok (.cbcDec k sb nb) ∧ ∃ m : Memory,
      exec (.cbcDec k sb nb) s = .next { s with buf := m, busy := false, done := true, pending := none }
      ∧ m.readBlocks sb.toNat (nb.toNat + 1) =
          cbcDecrypt (Config.cipherD (match k with | .h2d => Config.keyH2D | .d2h => Config.keyD2H)) zeroBlock
            (s.buf.readBlocks sb.toNat (nb.toNat + 1))
      ∧ SameBufOutside (16 * sb.toNat) (16 * (nb.toNat + 1)) s { s with buf := m }

/-- A command whose range no CMD write accepts is the command error of code 3 (41 R146, 60 R215; log 6). -/
def Obligations.OutOfRangeCommandIsACommandError : Prop :=
  ∀ (s : State) (k : KeySel) (sb nb : BitVec 2), 4 < sb.toNat + (nb.toNat + 1) →
    exec (.cbcEnc k sb nb) s = .next { s with errcode := if s.err then s.errcode else 0x3#4, err := true }
      ∧ exec (.cbcDec k sb nb) s = .next { s with errcode := if s.err then s.errcode else 0x3#4, err := true }

/-- Encrypting and then decrypting the same blocks under the same key restores BUF, and so does decrypting and then
encrypting (41 R144 (a), R147, R148; 95 V4). The second command is run straight after the first, where `busy = 0`: that
CBC_ENC and CBC_DEC are the completion function there too is the model's choice (log 6). -/
def Obligations.EncryptThenDecryptRestoresBuf : Prop :=
  ∀ (s t u : State) (k : KeySel) (sb nb : BitVec 2), s.buf.wf → blocksInRange sb nb = true →
    (exec (.cbcEnc k sb nb) s = .next t → exec (.cbcDec k sb nb) t = .next u → u.buf = s.buf)
      ∧ (exec (.cbcDec k sb nb) s = .next t → exec (.cbcEnc k sb nb) t = .next u → u.buf = s.buf)

/-- No state carries from one command to the next: two states whose BUF agrees on the command's blocks have the same
result blocks, whatever else differs (41 R152). -/
def Obligations.CommandResultDependsOnItsBlocksOnly : Prop :=
  ∀ (s s' t t' : State) (c : Command), c.inRange = true →
    (∀ i, 16 * c.sblk.toNat ≤ i → i < 16 * (c.sblk.toNat + blockCount c.nbm1) → s'.buf.read i = s.buf.read i) →
    exec c.toInstr s = .next t → exec c.toInstr s' = .next t' →
    ∀ i, 16 * c.sblk.toNat ≤ i → i < 16 * (c.sblk.toNat + blockCount c.nbm1) → t'.buf.read i = t.buf.read i

/-! ## Register, buffer and constant access -/

/-- CMD_RD answers the last accepted word and STATUS_RD answers `{24'b0, errcode, 1'b0, err, done, busy}`; neither
changes anything else, in every state (42 R181, R183). -/
def Obligations.CommandAndStatusReadsAnswerTheRegisters : Prop :=
  ∀ (s : State) (d : Word),
    DecodesTo .read 0x00#8 d (.ok .cmdRd)
      ∧ DecodesTo .read 0x04#8 d (.ok .statusRd)
      ∧ exec .cmdRd s = .next { s with resp := some (.readData s.cmd) }
      ∧ ∃ v : Word, exec .statusRd s = .next { s with resp := some (.readData v) }
        ∧ v.extractLsb 31 8 = 0#24 ∧ v.extractLsb 7 4 = s.errcode ∧ v.extractLsb 3 3 = 0#1
        ∧ v.extractLsb 2 2 = BitVec.ofBool s.err ∧ v.extractLsb 1 1 = BitVec.ofBool s.done
        ∧ v.extractLsb 0 0 = BitVec.ofBool s.busy

/-- STATUS_WR with bit 1 clears DONE, with bit 2 clears ERR and ERRCODE; every other bit is ignored and nothing else
changes, `busy` and a running command among it, in every state (42 R184). -/
def Obligations.StatusWriteClearsByOnes : Prop :=
  ∀ (s : State) (d : Word),
    DecodesTo .write 0x04#8 d (.ok (.statusWr d))
      ∧ exec (.statusWr d) s = .next
          { s with
            done := if d.extractLsb 1 1 = 1#1 then false else s.done
            err := if d.extractLsb 2 2 = 1#1 then false else s.err
            errcode := if d.extractLsb 2 2 = 1#1 then 0x0#4 else s.errcode
            resp := some .writeDone }

/-- BUF_RD is held while a command runs; with none running it answers the four bytes of the word, byte `4w + k` in bits
`[8k+7:8k]`, and changes nothing else (42 R186, 20 R63). -/
def Obligations.BufReadAnswersTheWord : Prop :=
  ∀ (s : State) (w : BitVec 4) (d : Word),
    DecodesTo .read (0x40#8 + 4#8 * w.setWidth 8) d (.ok (.bufRd w))
      ∧ (s.busy = true → exec (.bufRd w) s = .next { s with held := some (.bufRd w), resp := none })
      ∧ (s.busy = false → ∃ v : Word, exec (.bufRd w) s = .next { s with resp := some (.readData v) }
        ∧ v.extractLsb 7 0 = s.buf.read (4 * w.toNat) ∧ v.extractLsb 15 8 = s.buf.read (4 * w.toNat + 1)
        ∧ v.extractLsb 23 16 = s.buf.read (4 * w.toNat + 2) ∧ v.extractLsb 31 24 = s.buf.read (4 * w.toNat + 3))

/-- BUF_WR is held while a command runs; with none running it stores the four bytes of `wdata` at `4w` to `4w + 3`;
every other byte of BUF reads as before and nothing else changes (42 R187, 20 R63). -/
def Obligations.BufWriteStoresTheWord : Prop :=
  ∀ (s : State) (w : BitVec 4) (d : Word),
    DecodesTo .write (0x40#8 + 4#8 * w.setWidth 8) d (.ok (.bufWr w d))
      ∧ (s.busy = true → exec (.bufWr w d) s = .next { s with held := some (.bufWr w d), resp := none })
      ∧ (s.busy = false → ∃ m : Memory, exec (.bufWr w d) s = .next { s with buf := m, resp := some .writeDone }
        ∧ m.read (4 * w.toNat) = d.extractLsb 7 0 ∧ m.read (4 * w.toNat + 1) = d.extractLsb 15 8
        ∧ m.read (4 * w.toNat + 2) = d.extractLsb 23 16 ∧ m.read (4 * w.toNat + 3) = d.extractLsb 31 24
        ∧ SameBufOutside (4 * w.toNat) 4 s { s with buf := m })

/-- A BUF word reads back what was written to it, and a write to one word leaves every other word as it read
(42 R186, R187; 95 B1, B2). -/
def Obligations.BufWordReadsBackWhatWasWritten : Prop :=
  ∀ (s t : State) (w w' : BitVec 4) (d : Word), s.busy = false → exec (.bufWr w d) s = .next t →
    exec (.bufRd w) t = .next { t with resp := some (.readData d) }
      ∧ (w' ≠ w → ∀ v, exec (.bufRd w') s = .next { s with resp := some (.readData v) } →
          exec (.bufRd w') t = .next { t with resp := some (.readData v) })

/-- The constant windows answer their words, byte `4w + k` of the constant in bits `[8k+7:8k]`, and change nothing else,
in every state; a write to one is ERROR DIRECTION (42 R188 to R190). -/
def Obligations.ConstantReadsAnswerTheConstants : Prop :=
  ∀ (s : State) (w : BitVec 2) (d : Word) (k : Fin 4),
    have hk : 4 * w.toNat + k.val < 16 := by have := w.isLt; have := k.isLt; omega
    (DecodesTo .write (0x80#8 + 4#8 * w.setWidth 8) d (.error .direction)
        ∧ DecodesTo .read (0x80#8 + 4#8 * w.setWidth 8) d (.ok (.refRd w))
        ∧ ∃ v : Word, exec (.refRd w) s = .next { s with resp := some (.readData v) }
          ∧ v.extractLsb' (8 * k.val) 8 = Config.ref[4 * w.toNat + k.val])
      ∧ (DecodesTo .write (0x90#8 + 4#8 * w.setWidth 8) d (.error .direction)
        ∧ DecodesTo .read (0x90#8 + 4#8 * w.setWidth 8) d (.ok (.auth1rHdrRd w))
        ∧ ∃ v : Word, exec (.auth1rHdrRd w) s = .next { s with resp := some (.readData v) }
          ∧ v.extractLsb' (8 * k.val) 8 = Config.auth1rHdr[4 * w.toNat + k.val])
      ∧ (DecodesTo .write (0xA0#8 + 4#8 * w.setWidth 8) d (.error .direction)
        ∧ DecodesTo .read (0xA0#8 + 4#8 * w.setWidth 8) d (.ok (.auth2HdrRd w))
        ∧ ∃ v : Word, exec (.auth2HdrRd w) s = .next { s with resp := some (.readData v) }
          ∧ v.extractLsb' (8 * k.val) 8 = Config.auth2Hdr[4 * w.toNat + k.val])

/-! ## The whole machine -/

/-- Every read of every offset leaves all of the CCE's state unchanged, and the same read made again after any list of
reads, with no write or completion between, gets the same response (20 R67). -/
def Obligations.ReadsHaveNoSideEffects : Prop :=
  ∀ (i : Instr) (is : List Instr) (s : State), isRead i = true → (∀ r ∈ is, isRead r = true) →
    ∃ t u v, exec i s = .next t ∧ execAll is t = .next u ∧ exec i u = .next v
      ∧ SameDevice s t ∧ SameDevice s u ∧ SameDevice s v
      ∧ t.events = s.events ∧ u.events = s.events ∧ v.events = s.events
      ∧ v.resp = t.resp

/-- What each instruction may change, over all instructions: `acc` only the accumulator writes, the verify result only
CKS_VFY_WR, CMD only CMD_WR, DONE set only by a completion and cleared only by STATUS_WR, BUSY set only by CMD_WR and
cleared only by a completion, ERR set only by a rejected command and cleared only by STATUS_WR, BUF only BUF_WR and a
completion, the hold only a stalling transaction, the inputs none (10 R23 to R28, R30; 20 R66). A CBC_ENC or CBC_DEC
with blocks out of range counts as a rejected command: that it may set ERR is the model's choice (log 6), since the
spec's rejected command is a CMD write (10 R26, 60 R214). -/
def Obligations.EachRegisterChangesOnlyByItsWriters : Prop :=
  ∀ (i : Instr) (s t : State), exec i s = .next t →
    (t.acc = s.acc ∨ ∃ d, i = .cksAccWr d ∨ i = .cksIn8 d ∨ i = .cksIn32 d)
      ∧ ((t.vmatch = s.vmatch ∧ t.pvalid = s.pvalid ∧ t.pval = s.pval) ∨ ∃ d, i = .cksVfyWr d)
      ∧ (t.cmd = s.cmd ∨ i = .cmdWr t.cmd)
      ∧ (t.busy = s.busy ∨ (t.busy = true ∧ ∃ d, i = .cmdWr d)
          ∨ (t.busy = false ∧ ∃ c : Command, i = c.toInstr))
      ∧ (t.pending = s.pending ∨ (t.pending.isSome = true ∧ ∃ d, i = .cmdWr d)
          ∨ (t.pending = none ∧ ∃ c : Command, i = c.toInstr))
      ∧ (t.done = s.done ∨ (t.done = true ∧ ∃ c : Command, i = c.toInstr)
          ∨ (t.done = false ∧ ∃ d, i = .statusWr d))
      ∧ ((t.err = s.err ∧ t.errcode = s.errcode)
          ∨ (t.err = true ∧ ((∃ d, i = .cmdWr d) ∨ ∃ c : Command, i = c.toInstr ∧ c.inRange = false))
          ∨ (t.err = false ∧ t.errcode = 0x0#4 ∧ ∃ d, i = .statusWr d))
      ∧ (t.buf = s.buf ∨ (∃ w d, i = .bufWr w d) ∨ ∃ c : Command, i = c.toInstr)
      ∧ (t.held = s.held ∨ (t.held = some i ∧ stallsWhileBusy i = true ∧ s.busy = true))
      ∧ t.events = s.events

/-- The two units are independent: what an instruction leaves in the checksum unit depends on the checksum unit alone,
what it leaves in the CBC unit on the CBC unit alone (00 R3). -/
def Obligations.UnitsAreIndependent : Prop :=
  ∀ (i : Instr) (s s' t t' : State), exec i s = .next t → exec i s' = .next t' →
    (SameChecksumUnit s s' → SameChecksumUnit t t') ∧ (SameCbcUnit s s' → SameCbcUnit t t')

/-- The instructions of the checksum unit leave the CBC unit and the bus side's hold and inputs alone, and those of the
CBC unit and of the windows leave the checksum unit alone (00 R3, 40 R101 to R111, 70 R252). -/
def Obligations.UnitsLeaveEachOtherAlone : Prop :=
  ∀ (s t : State),
    (∀ i d, i = .cksAccRd ∨ i = .cksAccWr d ∨ i = .cksIn8 d ∨ i = .cksIn32 d ∨ i = .cksHexRd
        ∨ i = .cksVfyWr d ∨ i = .cksVfyRd → exec i s = .next t → SameCbcUnit s t ∧ SameBus s t)
      ∧ ∀ i d w v k sb nb, i = .cmdRd ∨ i = .cmdWr d ∨ i = .statusRd ∨ i = .statusWr d ∨ i = .bufRd w
        ∨ i = .bufWr w d ∨ i = .refRd v ∨ i = .auth1rHdrRd v ∨ i = .auth2HdrRd v ∨ i = .cbcEnc k sb nb
        ∨ i = .cbcDec k sb nb → exec i s = .next t → SameChecksumUnit s t

/-! ## The AUTH transforms -/

/-- With the challenge in BUF, CBC_DEC with `KEY_D2H` on blocks 1 to 3 leaves the plaintext `Q` in bytes 16 to 63 and
the header in bytes 0 to 15 (41 R161, R165). -/
def Obligations.AuthDecryptCommandComputesThePlaintext : Prop :=
  ∀ (s : State) (ch : List Byte), ch.length = 64 → (∀ i, i < 64 → s.buf.read i = ch.getD i 0x00#8) →
    ∃ t, exec (.cbcDec .d2h 1#2 2#2) s = .next t
      ∧ (List.range 48).map (fun i => t.buf.read (16 + i)) = authPlain ch
      ∧ (List.range 16).map t.buf.read = slice ch 0 16

/-- With the response plaintext in BUF bytes 0 to 31, CBC_ENC with `KEY_H2D` on blocks 0 and 1 makes them the AUTH2
body after its header, and the body has 48 bytes (41 R164, R165). -/
def Obligations.AuthEncryptCommandComputesTheBody : Prop :=
  ∀ (s : State) (q : List Byte), q.length = 48 →
    (∀ i, i < 32 → s.buf.read i = (authResponsePlain q).getD i 0x00#8) →
    ∃ t, exec (.cbcEnc .h2d 0#2 1#2) s = .next t
      ∧ Config.auth2Hdr.toList ++ (List.range 32).map t.buf.read = auth2Body q
      ∧ (auth2Body q).length = 48

/-- `Q` is valid exactly when `Q[8:16) = 0^8`, `Q[16:32) = REF` and `Q[32:48) = 0^16`. The response plaintext is
`Q[8:16) ‖ Q[0:8) ‖ 0^16`, which is `0^8 ‖ Q[0:8) ‖ 0^16`, 32 bytes, when `Q` is valid (41 R162, R163). -/
def Obligations.ValidPlaintextGivesTheSwappedResponse : Prop :=
  ∀ q : List Byte, q.length = 48 →
    (authBodyValid q = true ↔
        slice q 8 16 = List.replicate 8 0x00#8 ∧ slice q 16 32 = Config.ref.toList
          ∧ slice q 32 48 = List.replicate 16 0x00#8)
      ∧ authResponsePlain q = slice q 8 16 ++ slice q 0 8 ++ List.replicate 16 0x00#8
      ∧ (authBodyValid q = true →
        authResponsePlain q = List.replicate 8 0x00#8 ++ slice q 0 8 ++ List.replicate 16 0x00#8
          ∧ (authResponsePlain q).length = 32)

/-- The AUTH checks come in order and the first that fails gives the reason: the response, then the header, then the
decrypted body; when none fails the answer is the AUTH2 body (41 R160, R162, R164, R166; log 20). -/
def Obligations.AuthAnswersByTheFirstFailingCheck : Prop :=
  (authRespond none).mapError authReason = .error "Auth1 response invalid"
    ∧ ∀ ch : List Byte, ch.length = 64 →
      (slice ch 0 16 ≠ Config.auth1rHdr.toList →
          (authRespond (some ch)).mapError authReason = .error "Auth1 response header invalid")
        ∧ (slice ch 0 16 = Config.auth1rHdr.toList → authBodyValid (authPlain ch) = false →
          (authRespond (some ch)).mapError authReason = .error "Auth1 response body invalid")
        ∧ (slice ch 0 16 = Config.auth1rHdr.toList → authBodyValid (authPlain ch) = true →
          authRespond (some ch) = .ok (auth2Body (authPlain ch)))
end

