-- ==== Sys2Proof/Laws/Cbc.lean ====
section
/-! SUPPORT. Blocks under exclusive or, the cipher's two functions, and lengths of the CBC modes. -/

namespace Sys2Proof

theorem xor16_getElem (a b : Block) (i : Nat) (h : i < 16) : (xor16 a b)[i] = a[i] ^^^ b[i] := by
  simp [xor16]

/-- Exclusive or with the same block twice gives the block back. -/
theorem xor16_cancel (a b : Block) : xor16 (xor16 a b) b = a := by
  apply Vector.ext
  intro i h
  simp only [xor16_getElem, BitVec.xor_assoc, BitVec.xor_self, BitVec.xor_zero]

theorem xor16_zero (a : Block) : xor16 a zeroBlock = a := by
  apply Vector.ext
  intro i h
  simp [xor16_getElem, zeroBlock]

theorem Config.cipherD_cipherE (k b : Block) : Config.cipherD k (Config.cipherE k b) = b := by
  simp [Config.cipherD, Config.cipherE]

theorem Config.cipherE_cipherD (k b : Block) : Config.cipherE k (Config.cipherD k b) = b := by
  simp [Config.cipherD, Config.cipherE]

namespace Machine

@[simp] theorem cbcEncrypt_length (e : Block → Block) (iv : Block) (ps : List Block) :
    (cbcEncrypt e iv ps).length = ps.length := by
  induction ps generalizing iv with
  | nil => rfl
  | cons p ps ih => simp [cbcEncrypt, ih]

@[simp] theorem cbcDecrypt_length (d : Block → Block) (iv : Block) (cs : List Block) :
    (cbcDecrypt d iv cs).length = cs.length := by
  induction cs generalizing iv with
  | nil => rfl
  | cons c cs ih => simp [cbcDecrypt, ih]

end Machine

end Sys2Proof
end

