-- ==== Sys2Proof/Laws/Auth.lean ====
section
/-! SUPPORT. Laws of the AUTH transforms: blocks and their bytes, and the challenge that decrypts to a given plaintext. -/

namespace Sys2Proof.Machine

theorem blockBytes_length (bs : List Block) : (blockBytes bs).length = 16 * bs.length := by
  induction bs with
  | nil => rfl
  | cons b bs ih =>
    have h : blockBytes (b :: bs) = b.toList ++ blockBytes bs := rfl
    rw [h, List.length_append, ih, Vector.length_toList, List.length_cons]
    omega

theorem blockAt_blockBytes_zero (b : Block) (bs : List Block) : blockAt (blockBytes (b :: bs)) 0 = b := by
  apply Vector.ext
  intro i hi
  have h : blockBytes (b :: bs) = b.toList ++ blockBytes bs := rfl
  simp [blockAt, h, List.getElem?_append_left]

theorem blockAt_blockBytes_succ (b : Block) (bs : List Block) (j : Nat) :
    blockAt (blockBytes (b :: bs)) (j + 1) = blockAt (blockBytes bs) j := by
  apply Vector.ext
  intro i hi
  have h : blockBytes (b :: bs) = b.toList ++ blockBytes bs := rfl
  have hx : 16 * (j + 1) + i - 16 = 16 * j + i := by omega
  simp only [blockAt, h, Vector.getElem_ofFn, List.getD_eq_getElem?_getD]
  rw [List.getElem?_append_right (by rw [Vector.length_toList]; omega), Vector.length_toList, hx]

/-- The challenge whose decryption is the three blocks of `q`, made as 95 P3 makes its own. -/
def challengeOf (q : List Block) : List Byte :=
  blockBytes (Config.auth1rHdr :: cbcEncrypt (Config.cipherE Config.keyD2H) zeroBlock q)

theorem challengeOf_header (q : List Block) : slice (challengeOf q) 0 16 = Config.auth1rHdr.toList := by
  have h : challengeOf q = Config.auth1rHdr.toList
      ++ blockBytes (cbcEncrypt (Config.cipherE Config.keyD2H) zeroBlock q) := rfl
  rw [h, slice, List.drop_zero, List.take_append_of_le_length (by simp), List.take_of_length_le (by simp)]

theorem challengeOf_plain (a b c : Block) : authPlain (challengeOf [a, b, c]) = blockBytes [a, b, c] := by
  simp only [authPlain, challengeOf, cbcEncrypt, blockAt_blockBytes_succ, blockAt_blockBytes_zero, cbcDecrypt,
    Config.cipherD_cipherE, xor16_cancel]

end Sys2Proof.Machine
end

