-- ==== Sys2Proof/Laws/Decode.lean ====
section
/-! SUPPORT. When the decoders accept, and with what. -/

namespace Sys2Proof

theorem blocksInRange_iff (sb nb : BitVec 2) :
    blocksInRange sb nb = true ↔ sb.toNat + blockCount nb ≤ 4 := by
  simp only [blocksInRange, decide_eq_true_eq]

theorem blocksInRange_false_iff (sb nb : BitVec 2) :
    blocksInRange sb nb = false ↔ 4 < sb.toNat + blockCount nb := by
  simp only [blocksInRange, decide_eq_false_iff_not, Nat.not_le]

/-- A CMD word that decodes has its reserved bits zero and a legal OP, and the command has the word's fields. -/
theorem decodeCommand_ok {w : Word} {c : Command} (h : decodeCommand w = .ok c) :
    w &&& cmdReservedMask = 0#32
      ∧ ((w.extractLsb' 0 2 = 0b01#2 ∧ c = commandFields .enc w)
        ∨ (w.extractLsb' 0 2 = 0b10#2 ∧ c = commandFields .dec w)) := by
  by_cases h0 : w &&& cmdReservedMask = 0#32
  · by_cases h1 : w.extractLsb' 0 2 = 0b01#2
    · simp only [decodeCommand, h0, ne_eq, not_true_eq_false, ↓reduceIte, h1, Except.ok.injEq] at h
      exact ⟨h0, .inl ⟨h1, h.symm⟩⟩
    · by_cases h2 : w.extractLsb' 0 2 = 0b10#2
      · rw [decodeCommand, if_neg (by simpa using h0), if_neg h1, if_pos h2, Except.ok.injEq] at h
        exact ⟨h0, .inr ⟨h2, h.symm⟩⟩
      · simp [decodeCommand, h0, h1, h2] at h
  · simp [decodeCommand, h0] at h

/-- Why a CMD word does not decode: a reserved bit first, else the OP. -/
theorem decodeCommand_error {w : Word} {e : CmdReject} (h : decodeCommand w = .error e) :
    (w &&& cmdReservedMask ≠ 0#32 ∧ e = .rsvdBits)
      ∨ (w &&& cmdReservedMask = 0#32 ∧ w.extractLsb' 0 2 ≠ 0b01#2 ∧ w.extractLsb' 0 2 ≠ 0b10#2
        ∧ e = .badOp) := by
  by_cases h0 : w &&& cmdReservedMask = 0#32
  · by_cases h1 : w.extractLsb' 0 2 = 0b01#2
    · simp [decodeCommand, h0, h1] at h
    · by_cases h2 : w.extractLsb' 0 2 = 0b10#2
      · simp [decodeCommand, h0, h2] at h
      · simp only [decodeCommand, h0, ne_eq, not_true_eq_false, ↓reduceIte, h1, h2, Except.error.injEq] at h
        exact .inr ⟨h0, h1, h2, h.symm⟩
  · simp only [decodeCommand, ne_eq, h0, not_false_eq_true, ↓reduceIte, Except.error.injEq] at h
    exact .inl ⟨h0, h.symm⟩

/-- The three checks pass exactly for a word that decodes to blocks within BUF. -/
theorem checkCommand_ok_iff {w : Word} {c : Command} :
    checkCommand w = .ok c ↔ decodeCommand w = .ok c ∧ c.inRange = true := by
  unfold checkCommand
  cases hd : decodeCommand w with
  | error e => simp
  | ok c' =>
    by_cases hr : c'.inRange
    · simp only [hr, ↓reduceIte, Except.ok.injEq]
      exact ⟨fun h => h ▸ ⟨rfl, hr⟩, fun h => h.1⟩
    · simp only [hr, Bool.false_eq_true, ↓reduceIte, reduceCtorEq, false_iff, not_and, Except.ok.injEq]
      exact fun h => h ▸ hr

/-- The selector of the transaction of a selector is that selector. -/
theorem selector_selectorTxn (sel : BitVec 9) (wdata : Word) :
    selector (selectorTxn sel wdata).dir (selectorTxn sel wdata).off = sel := by
  revert sel
  show ∀ sel : BitVec 9,
    selector (if sel.extractLsb' 8 1 = 1#1 then .write else .read) (sel.extractLsb' 0 8) = sel
  decide +kernel

/-- The transaction of a selector decodes as the selector does: its size is 4. -/
theorem decodeTxn_selectorTxn (sel : BitVec 9) (wdata : Word) :
    decodeTxn (selectorTxn sel wdata) = decodeSelector sel wdata := by
  have h := selector_selectorTxn sel wdata
  simp only [decodeTxn, selectorTxn, ne_eq, not_true_eq_false, ↓reduceIte] at h ⊢
  rw [h]

/-- A transaction of size 4 decodes as its selector does. -/
theorem decodeTxn_word (dir : Dir) (off : BitVec 8) (wdata : Word) :
    decodeTxn ⟨dir, off, 4, wdata⟩ = decodeSelector (selector dir off) wdata := by
  simp only [decodeTxn, ne_eq, not_true_eq_false, ↓reduceIte]

/-- Only a size of 4 decodes. -/
theorem decodeTxn_size {t : Txn} {i : Instr} (h : decodeTxn t = .ok i) : t.size = 4 := by
  by_contra hs
  simp [decodeTxn, hs] at h

/-- Whether a selector decodes, and the cause when it does not, depends on the selector alone, not on the data. -/
theorem decodeSelector_error_data {sel : BitVec 9} {d : Word} {c : BusCause}
    (h : decodeSelector sel d = .error c) (d' : Word) : decodeSelector sel d' = .error c := by
  by_cases h0 : sel.extractLsb' 0 2 = 0#2
  · by_cases h1 : isReserved (sel.extractLsb' 0 8)
    · simpa [decodeSelector, h0, h1] using h
    · simp only [decodeSelector, h0, ne_eq, not_true_eq_false, ↓reduceIte, h1, Bool.false_eq_true] at h ⊢
      cases hf : busRows.find? (fun r => r.matchesSel sel) with
      | some r => simp [hf] at h
      | none => simpa [hf] using h
  · simpa [decodeSelector, h0] using h

end Sys2Proof
end

