-- ==== Sys2Proof/Laws/Memory.lean ====
section
/-! SUPPORT. What the operations on BUF do: read after write, the bytes a write leaves alone, and the canonical form. -/

namespace Sys2Proof.Machine

/-! ## One byte -/

@[simp] theorem Memory.read_nil (i : Nat) : Memory.read [] i = 0x00#8 := rfl

theorem Memory.read_cons (a : Nat) (b : Byte) (m : Memory) (i : Nat) :
    Memory.read ((a, b) :: m) i = if a = i then b else Memory.read m i := rfl

theorem Memory.read_drop (m : Memory) (i j : Nat) :
    Memory.read (Memory.drop m i) j = if j = i then 0x00#8 else Memory.read m j := by
  induction m with
  | nil => simp [Memory.drop]
  | cons c m ih =>
    obtain ⟨a, b⟩ := c
    simp only [Memory.drop, List.filter_cons] at ih ⊢
    by_cases ha : a = i
    · subst ha
      simp only [bne_self_eq_false, Bool.false_eq_true, ↓reduceIte, ih, Memory.read_cons]
      split <;> simp_all [eq_comm]
    · simp only [bne_iff_ne, ne_eq, ha, not_false_eq_true, ↓reduceIte, Memory.read_cons, ih]
      split <;> simp_all

theorem Memory.read_insert (m : Memory) (i j : Nat) (v : Byte) (h : ∀ c ∈ m, c.1 ≠ i) :
    Memory.read (Memory.insert m i v) j = if j = i then v else Memory.read m j := by
  induction m with
  | nil => simp [Memory.insert, Memory.read_cons, eq_comm]
  | cons c m ih =>
    obtain ⟨a, b⟩ := c
    have ha : a ≠ i := h (a, b) (by simp)
    have ih' := ih fun c hc => h c (by simp [hc])
    simp only [Memory.insert]
    split
    · simp [Memory.read_cons, eq_comm]
    · simp only [Memory.read_cons, ih']
      split <;> simp_all

theorem Memory.drop_keys (m : Memory) (i : Nat) : ∀ c ∈ Memory.drop m i, c.1 ≠ i := by
  intro c hc
  simpa using (List.mem_filter.mp hc).2

/-- Reading any byte after a write. -/
theorem Memory.read_write (m : Memory) (i j : Nat) (v : Byte) :
    Memory.read (Memory.write m i v) j = if j = i then v else Memory.read m j := by
  unfold Memory.write
  split
  · next h => simp [Memory.read_drop, h]
  · rw [Memory.read_insert _ _ _ _ (Memory.drop_keys m i), Memory.read_drop]
    split <;> simp_all

/-! ## The canonical form -/

theorem Memory.drop_wf {m : Memory} (h : Memory.wf m) (i : Nat) : Memory.wf (Memory.drop m i) :=
  ⟨h.1.sublist List.filter_sublist, fun c hc => h.2 c (List.mem_filter.mp hc).1⟩

theorem Memory.mem_insert (m : Memory) (i : Nat) (v : Byte) (c : Host.Cell) :
    c ∈ Memory.insert m i v ↔ c = (i, v) ∨ c ∈ m := by
  induction m with
  | nil => simp [Memory.insert]
  | cons d m ih =>
    obtain ⟨a, b⟩ := d
    simp only [Memory.insert]
    split
    · simp
    · simp only [List.mem_cons, ih]
      tauto

theorem Memory.insert_pairwise {m : Memory} (h : m.Pairwise (fun a b => a.1 < b.1)) (i : Nat) (v : Byte)
    (hi : ∀ c ∈ m, c.1 ≠ i) : (Memory.insert m i v).Pairwise (fun a b => a.1 < b.1) := by
  induction m with
  | nil => simp [Memory.insert]
  | cons d m ih =>
    obtain ⟨a, b⟩ := d
    rw [List.pairwise_cons] at h
    have ha : a ≠ i := hi (a, b) (by simp)
    simp only [Memory.insert]
    split
    · next hlt =>
      refine List.pairwise_cons.mpr ⟨fun c hc => ?_, List.pairwise_cons.mpr h⟩
      rcases List.mem_cons.mp hc with rfl | hc
      · exact hlt
      · exact Nat.lt_trans hlt (h.1 c hc)
    · next hge =>
      refine List.pairwise_cons.mpr ⟨fun c hc => ?_, ih h.2 fun c hc => hi c (by simp [hc])⟩
      rcases (Memory.mem_insert m i v c).mp hc with rfl | hc
      · show a < i
        omega
      · exact h.1 c hc

/-- A write of a byte of BUF keeps the canonical form. -/
theorem Memory.write_wf {m : Memory} (h : Memory.wf m) {i : Nat} (hi : i < 64) (v : Byte) :
    Memory.wf (Memory.write m i v) := by
  unfold Memory.write
  split
  · exact Memory.drop_wf h i
  · next hv =>
    have hd := Memory.drop_wf h i
    refine ⟨Memory.insert_pairwise hd.1 i v (Memory.drop_keys m i), fun c hc => ?_⟩
    rcases (Memory.mem_insert _ i v c).mp hc with rfl | hc
    · exact ⟨hi, hv⟩
    · exact hd.2 c hc

theorem Memory.wf_nil : Memory.wf [] := ⟨List.Pairwise.nil, fun _ h => absurd h (by simp)⟩

theorem Memory.read_below {m : Memory} {a : Nat} (h : ∀ c ∈ m, a < c.1) {i : Nat} (hi : i ≤ a) :
    Memory.read m i = 0x00#8 := by
  induction m with
  | nil => rfl
  | cons d m ih =>
    obtain ⟨x, b⟩ := d
    have hx : a < x := h (x, b) (by simp)
    rw [Memory.read_cons, if_neg (by omega), ih fun c hc => h c (by simp [hc])]

/-- Equal memories are equal data: two canonical memories that read alike are the same list. -/
theorem Memory.ext_of_read {m n : Memory} (hm : Memory.wf m) (hn : Memory.wf n)
    (h : ∀ i, Memory.read m i = Memory.read n i) : m = n := by
  induction m generalizing n with
  | nil =>
    cases n with
    | nil => rfl
    | cons d n =>
      obtain ⟨a, b⟩ := d
      have := h a
      rw [Memory.read_cons, if_pos rfl] at this
      exact absurd this.symm (hn.2 (a, b) (by simp)).2
  | cons d m ih =>
    obtain ⟨a, b⟩ := d
    have hmc := List.pairwise_cons.mp hm.1
    have hb : b ≠ 0x00#8 := (hm.2 (a, b) (by simp)).2
    cases n with
    | nil =>
      have := h a
      rw [Memory.read_cons, if_pos rfl] at this
      exact absurd this hb
    | cons e n =>
      obtain ⟨a', b'⟩ := e
      have hnc := List.pairwise_cons.mp hn.1
      have hb' : b' ≠ 0x00#8 := (hn.2 (a', b') (by simp)).2
      have haa : a = a' := by
        have h1 := h a
        have h2 := h a'
        rw [Memory.read_cons, if_pos rfl, Memory.read_cons] at h1
        rw [Memory.read_cons, Memory.read_cons, if_pos rfl] at h2
        by_contra hne
        rw [if_neg (Ne.symm hne)] at h1
        rw [if_neg hne] at h2
        rcases Nat.lt_or_gt_of_ne hne with hlt | hgt
        · exact hb (h1.trans (Memory.read_below hnc.1 (Nat.le_of_lt hlt)))
        · exact hb' (h2.symm.trans (Memory.read_below hmc.1 (Nat.le_of_lt hgt)))
      subst haa
      have hbb : b = b' := by
        have := h a
        rwa [Memory.read_cons, if_pos rfl, Memory.read_cons, if_pos rfl] at this
      subst hbb
      congr 1
      refine ih ⟨hmc.2, fun c hc => hm.2 c (by simp [hc])⟩ ⟨hnc.2, fun c hc => hn.2 c (by simp [hc])⟩ fun i => ?_
      by_cases hi : i ≤ a
      · rw [Memory.read_below hmc.1 hi, Memory.read_below hnc.1 hi]
      · have := h i
        rwa [Memory.read_cons, if_neg (by omega), Memory.read_cons, if_neg (by omega)] at this

/-! ## Several bytes -/

/-- Reading any byte after a run of bytes was stored. -/
theorem Memory.read_writeBytes (m : Memory) (i : Nat) (vs : List Byte) (j : Nat) :
    Memory.read (Memory.writeBytes m i vs) j =
      if i ≤ j ∧ j < i + vs.length then vs.getD (j - i) 0x00#8 else Memory.read m j := by
  induction vs generalizing m i with
  | nil =>
    rw [Memory.writeBytes, if_neg (by simp only [List.length_nil]; omega)]
  | cons v vs ih =>
    rw [Memory.writeBytes, ih, Memory.read_write, List.length_cons]
    by_cases h1 : j = i
    · subst h1
      rw [if_neg (by omega), if_pos rfl, if_pos (by omega)]
      simp
    · by_cases h2 : i + 1 ≤ j ∧ j < i + 1 + vs.length
      · rw [if_pos h2, if_pos (by omega)]
        obtain ⟨k, hk⟩ : ∃ k, j - i = k + 1 := ⟨j - i - 1, by omega⟩
        rw [hk, List.getD_cons_succ]
        congr 1
        omega
      · rw [if_neg h2, if_neg h1, if_neg (by omega)]

theorem Memory.writeBytes_wf {m : Memory} (h : Memory.wf m) (i : Nat) (vs : List Byte)
    (hi : i + vs.length ≤ 64) : Memory.wf (Memory.writeBytes m i vs) := by
  induction vs generalizing m i with
  | nil => exact h
  | cons v vs ih =>
    rw [List.length_cons] at hi
    exact ih (Memory.write_wf h (by omega) v) (i + 1) (by omega)

/-! ## Words -/

/-- Reading any byte after a word was stored. -/
theorem Memory.read_writeWord (m : Memory) (w : BitVec 4) (v : Word) (j : Nat) :
    Memory.read (Memory.writeWord m w v) j =
      if 4 * w.toNat ≤ j ∧ j < 4 * w.toNat + 4 then byteLane v (j - 4 * w.toNat) else Memory.read m j := by
  rw [Memory.writeWord, Memory.read_writeBytes, bufByteIndex]
  simp only [List.length_cons, List.length_nil]
  split
  · next h =>
    obtain ⟨k, hk, hk4⟩ : ∃ k, j - 4 * w.toNat = k ∧ k < 4 := ⟨_, rfl, by omega⟩
    rw [hk]
    interval_cases k <;> rfl
  · rfl

theorem Memory.writeWord_wf {m : Memory} (h : Memory.wf m) (w : BitVec 4) (v : Word) :
    Memory.wf (Memory.writeWord m w v) :=
  Memory.writeBytes_wf h _ _ (by have := w.isLt; simp only [bufByteIndex, List.length_cons, List.length_nil]; omega)

/-! ## Blocks -/

@[simp] theorem Memory.readBlocks_length (m : Memory) (j n : Nat) : (Memory.readBlocks m j n).length = n := by
  induction n generalizing j with
  | zero => rfl
  | succ n ih => simp [Memory.readBlocks, ih]

/-- Reading any byte after consecutive blocks were stored. -/
theorem Memory.read_writeBlocks (m : Memory) (j : Nat) (bs : List Block) (i : Nat) :
    Memory.read (Memory.writeBlocks m j bs) i =
      if 16 * j ≤ i ∧ i < 16 * (j + bs.length) then ((bs.flatMap Vector.toList).getD (i - 16 * j) 0x00#8)
      else Memory.read m i := by
  induction bs generalizing m j with
  | nil =>
    rw [Memory.writeBlocks, if_neg (by simp only [List.length_nil]; omega)]
  | cons b bs ih =>
    have hb : b.toList.length = 16 := by simp
    rw [Memory.writeBlocks, ih, Memory.read_writeBytes, hb, blockByteIndex, List.length_cons, List.flatMap_cons]
    by_cases h1 : 16 * (j + 1) ≤ i ∧ i < 16 * (j + 1 + bs.length)
    · rw [if_pos h1, if_pos (by omega), List.getD_append_right _ _ _ _ (by omega)]
      congr 1
      omega
    · rw [if_neg h1]
      by_cases h2 : 16 * j ≤ i ∧ i < 16 * j + 16
      · rw [if_pos h2, if_pos (by omega), List.getD_append _ _ _ _ (by omega)]
      · rw [if_neg h2, if_neg (by omega)]

theorem Memory.writeBlocks_wf {m : Memory} (h : Memory.wf m) (j : Nat) (bs : List Block) (hj : j + bs.length ≤ 4) :
    Memory.wf (Memory.writeBlocks m j bs) := by
  induction bs generalizing m j with
  | nil => exact h
  | cons b bs ih =>
    have hb : b.toList.length = 16 := by simp
    rw [List.length_cons] at hj
    exact ih (Memory.writeBytes_wf h _ _ (by rw [hb, blockByteIndex]; omega)) (j + 1) (by omega)

/-- The blocks read depend on their bytes alone. -/
theorem Memory.readBlocks_congr {m n : Memory} {j k : Nat}
    (h : ∀ i, 16 * j ≤ i → i < 16 * (j + k) → Memory.read m i = Memory.read n i) :
    Memory.readBlocks m j k = Memory.readBlocks n j k := by
  induction k generalizing j with
  | zero => rfl
  | succ k ih =>
    simp only [Memory.readBlocks]
    refine congrArg₂ List.cons ?_ (ih fun i h1 h2 => h i (by omega) (by omega))
    apply Vector.ext
    intro i hi
    simp only [Memory.readBlock, Vector.getElem_ofFn, blockByteIndex]
    exact h _ (by omega) (by omega)

/-- What was stored as consecutive blocks reads back as those blocks. -/
theorem Memory.readBlocks_writeBlocks (m : Memory) (j : Nat) (bs : List Block) :
    Memory.readBlocks (Memory.writeBlocks m j bs) j bs.length = bs := by
  induction bs generalizing m j with
  | nil => rfl
  | cons b bs ih =>
    simp only [Memory.writeBlocks, List.length_cons, Memory.readBlocks]
    refine congrArg₂ List.cons ?_ (ih _ _)
    apply Vector.ext
    intro i hi
    have hb : b.toList.length = 16 := by simp
    simp only [Memory.readBlock, Vector.getElem_ofFn, blockByteIndex]
    rw [Memory.read_writeBlocks, if_neg (by omega), Memory.read_writeBytes, if_pos (by omega),
      show 16 * j + i - 16 * j = i by omega, List.getD_eq_getElem _ _ (by omega)]
    simp

end Sys2Proof.Machine
end

