-- ==== Sys2Proof/Laws/State.lean ====
section
/-! SUPPORT. One lemma per field per update of the state, so that no proof unfolds a record update. -/

namespace Sys2Proof.Machine

variable (s : State)

/-! ## respondRead -/

@[simp] theorem respondRead_cmd (v : Word) : (respondRead v s).cmd = s.cmd := rfl
@[simp] theorem respondRead_busy (v : Word) : (respondRead v s).busy = s.busy := rfl
@[simp] theorem respondRead_done (v : Word) : (respondRead v s).done = s.done := rfl
@[simp] theorem respondRead_err (v : Word) : (respondRead v s).err = s.err := rfl
@[simp] theorem respondRead_errcode (v : Word) : (respondRead v s).errcode = s.errcode := rfl
@[simp] theorem respondRead_acc (v : Word) : (respondRead v s).acc = s.acc := rfl
@[simp] theorem respondRead_vmatch (v : Word) : (respondRead v s).vmatch = s.vmatch := rfl
@[simp] theorem respondRead_pvalid (v : Word) : (respondRead v s).pvalid = s.pvalid := rfl
@[simp] theorem respondRead_pval (v : Word) : (respondRead v s).pval = s.pval := rfl
@[simp] theorem respondRead_buf (v : Word) : (respondRead v s).buf = s.buf := rfl
@[simp] theorem respondRead_pending (v : Word) : (respondRead v s).pending = s.pending := rfl
@[simp] theorem respondRead_held (v : Word) : (respondRead v s).held = s.held := rfl
@[simp] theorem respondRead_resp (v : Word) : (respondRead v s).resp = some (.readData v) := rfl
@[simp] theorem respondRead_events (v : Word) : (respondRead v s).events = s.events := rfl

/-! ## respondWrite -/

@[simp] theorem respondWrite_cmd : (respondWrite s).cmd = s.cmd := rfl
@[simp] theorem respondWrite_busy : (respondWrite s).busy = s.busy := rfl
@[simp] theorem respondWrite_done : (respondWrite s).done = s.done := rfl
@[simp] theorem respondWrite_err : (respondWrite s).err = s.err := rfl
@[simp] theorem respondWrite_errcode : (respondWrite s).errcode = s.errcode := rfl
@[simp] theorem respondWrite_acc : (respondWrite s).acc = s.acc := rfl
@[simp] theorem respondWrite_vmatch : (respondWrite s).vmatch = s.vmatch := rfl
@[simp] theorem respondWrite_pvalid : (respondWrite s).pvalid = s.pvalid := rfl
@[simp] theorem respondWrite_pval : (respondWrite s).pval = s.pval := rfl
@[simp] theorem respondWrite_buf : (respondWrite s).buf = s.buf := rfl
@[simp] theorem respondWrite_pending : (respondWrite s).pending = s.pending := rfl
@[simp] theorem respondWrite_held : (respondWrite s).held = s.held := rfl
@[simp] theorem respondWrite_resp : (respondWrite s).resp = some .writeDone := rfl
@[simp] theorem respondWrite_events : (respondWrite s).events = s.events := rfl

/-! ## holdTransaction -/

@[simp] theorem holdTransaction_cmd (i : Instr) : (holdTransaction i s).cmd = s.cmd := rfl
@[simp] theorem holdTransaction_busy (i : Instr) : (holdTransaction i s).busy = s.busy := rfl
@[simp] theorem holdTransaction_done (i : Instr) : (holdTransaction i s).done = s.done := rfl
@[simp] theorem holdTransaction_err (i : Instr) : (holdTransaction i s).err = s.err := rfl
@[simp] theorem holdTransaction_errcode (i : Instr) : (holdTransaction i s).errcode = s.errcode := rfl
@[simp] theorem holdTransaction_acc (i : Instr) : (holdTransaction i s).acc = s.acc := rfl
@[simp] theorem holdTransaction_vmatch (i : Instr) : (holdTransaction i s).vmatch = s.vmatch := rfl
@[simp] theorem holdTransaction_pvalid (i : Instr) : (holdTransaction i s).pvalid = s.pvalid := rfl
@[simp] theorem holdTransaction_pval (i : Instr) : (holdTransaction i s).pval = s.pval := rfl
@[simp] theorem holdTransaction_buf (i : Instr) : (holdTransaction i s).buf = s.buf := rfl
@[simp] theorem holdTransaction_pending (i : Instr) : (holdTransaction i s).pending = s.pending := rfl
@[simp] theorem holdTransaction_held (i : Instr) : (holdTransaction i s).held = some i := rfl
@[simp] theorem holdTransaction_resp (i : Instr) : (holdTransaction i s).resp = none := rfl
@[simp] theorem holdTransaction_events (i : Instr) : (holdTransaction i s).events = s.events := rfl

/-! ## releaseHold -/

@[simp] theorem releaseHold_cmd : (releaseHold s).cmd = s.cmd := rfl
@[simp] theorem releaseHold_busy : (releaseHold s).busy = s.busy := rfl
@[simp] theorem releaseHold_done : (releaseHold s).done = s.done := rfl
@[simp] theorem releaseHold_err : (releaseHold s).err = s.err := rfl
@[simp] theorem releaseHold_errcode : (releaseHold s).errcode = s.errcode := rfl
@[simp] theorem releaseHold_acc : (releaseHold s).acc = s.acc := rfl
@[simp] theorem releaseHold_vmatch : (releaseHold s).vmatch = s.vmatch := rfl
@[simp] theorem releaseHold_pvalid : (releaseHold s).pvalid = s.pvalid := rfl
@[simp] theorem releaseHold_pval : (releaseHold s).pval = s.pval := rfl
@[simp] theorem releaseHold_buf : (releaseHold s).buf = s.buf := rfl
@[simp] theorem releaseHold_pending : (releaseHold s).pending = s.pending := rfl
@[simp] theorem releaseHold_held : (releaseHold s).held = none := rfl
@[simp] theorem releaseHold_resp : (releaseHold s).resp = s.resp := rfl
@[simp] theorem releaseHold_events : (releaseHold s).events = s.events := rfl

/-! ## setAcc -/

@[simp] theorem setAcc_cmd (v : Byte) : (setAcc v s).cmd = s.cmd := rfl
@[simp] theorem setAcc_busy (v : Byte) : (setAcc v s).busy = s.busy := rfl
@[simp] theorem setAcc_done (v : Byte) : (setAcc v s).done = s.done := rfl
@[simp] theorem setAcc_err (v : Byte) : (setAcc v s).err = s.err := rfl
@[simp] theorem setAcc_errcode (v : Byte) : (setAcc v s).errcode = s.errcode := rfl
@[simp] theorem setAcc_acc (v : Byte) : (setAcc v s).acc = v := rfl
@[simp] theorem setAcc_vmatch (v : Byte) : (setAcc v s).vmatch = s.vmatch := rfl
@[simp] theorem setAcc_pvalid (v : Byte) : (setAcc v s).pvalid = s.pvalid := rfl
@[simp] theorem setAcc_pval (v : Byte) : (setAcc v s).pval = s.pval := rfl
@[simp] theorem setAcc_buf (v : Byte) : (setAcc v s).buf = s.buf := rfl
@[simp] theorem setAcc_pending (v : Byte) : (setAcc v s).pending = s.pending := rfl
@[simp] theorem setAcc_held (v : Byte) : (setAcc v s).held = s.held := rfl
@[simp] theorem setAcc_resp (v : Byte) : (setAcc v s).resp = s.resp := rfl
@[simp] theorem setAcc_events (v : Byte) : (setAcc v s).events = s.events := rfl

/-! ## setVerify -/

@[simp] theorem setVerify_cmd (vm pv : Bool) (pb : Byte) : (setVerify vm pv pb s).cmd = s.cmd := rfl
@[simp] theorem setVerify_busy (vm pv : Bool) (pb : Byte) : (setVerify vm pv pb s).busy = s.busy := rfl
@[simp] theorem setVerify_done (vm pv : Bool) (pb : Byte) : (setVerify vm pv pb s).done = s.done := rfl
@[simp] theorem setVerify_err (vm pv : Bool) (pb : Byte) : (setVerify vm pv pb s).err = s.err := rfl
@[simp] theorem setVerify_errcode (vm pv : Bool) (pb : Byte) : (setVerify vm pv pb s).errcode = s.errcode := rfl
@[simp] theorem setVerify_acc (vm pv : Bool) (pb : Byte) : (setVerify vm pv pb s).acc = s.acc := rfl
@[simp] theorem setVerify_vmatch (vm pv : Bool) (pb : Byte) : (setVerify vm pv pb s).vmatch = vm := rfl
@[simp] theorem setVerify_pvalid (vm pv : Bool) (pb : Byte) : (setVerify vm pv pb s).pvalid = pv := rfl
@[simp] theorem setVerify_pval (vm pv : Bool) (pb : Byte) : (setVerify vm pv pb s).pval = pb := rfl
@[simp] theorem setVerify_buf (vm pv : Bool) (pb : Byte) : (setVerify vm pv pb s).buf = s.buf := rfl
@[simp] theorem setVerify_pending (vm pv : Bool) (pb : Byte) : (setVerify vm pv pb s).pending = s.pending := rfl
@[simp] theorem setVerify_held (vm pv : Bool) (pb : Byte) : (setVerify vm pv pb s).held = s.held := rfl
@[simp] theorem setVerify_resp (vm pv : Bool) (pb : Byte) : (setVerify vm pv pb s).resp = s.resp := rfl
@[simp] theorem setVerify_events (vm pv : Bool) (pb : Byte) : (setVerify vm pv pb s).events = s.events := rfl

/-! ## setBuf -/

@[simp] theorem setBuf_cmd (m : Memory) : (setBuf m s).cmd = s.cmd := rfl
@[simp] theorem setBuf_busy (m : Memory) : (setBuf m s).busy = s.busy := rfl
@[simp] theorem setBuf_done (m : Memory) : (setBuf m s).done = s.done := rfl
@[simp] theorem setBuf_err (m : Memory) : (setBuf m s).err = s.err := rfl
@[simp] theorem setBuf_errcode (m : Memory) : (setBuf m s).errcode = s.errcode := rfl
@[simp] theorem setBuf_acc (m : Memory) : (setBuf m s).acc = s.acc := rfl
@[simp] theorem setBuf_vmatch (m : Memory) : (setBuf m s).vmatch = s.vmatch := rfl
@[simp] theorem setBuf_pvalid (m : Memory) : (setBuf m s).pvalid = s.pvalid := rfl
@[simp] theorem setBuf_pval (m : Memory) : (setBuf m s).pval = s.pval := rfl
@[simp] theorem setBuf_buf (m : Memory) : (setBuf m s).buf = m := rfl
@[simp] theorem setBuf_pending (m : Memory) : (setBuf m s).pending = s.pending := rfl
@[simp] theorem setBuf_held (m : Memory) : (setBuf m s).held = s.held := rfl
@[simp] theorem setBuf_resp (m : Memory) : (setBuf m s).resp = s.resp := rfl
@[simp] theorem setBuf_events (m : Memory) : (setBuf m s).events = s.events := rfl

/-! ## clearStatus -/

@[simp] theorem clearStatus_cmd (d e : Bool) : (clearStatus d e s).cmd = s.cmd := rfl
@[simp] theorem clearStatus_busy (d e : Bool) : (clearStatus d e s).busy = s.busy := rfl
@[simp] theorem clearStatus_done (d e : Bool) : (clearStatus d e s).done = (s.done && !d) := rfl
@[simp] theorem clearStatus_err (d e : Bool) : (clearStatus d e s).err = (s.err && !e) := rfl
@[simp] theorem clearStatus_errcode (d e : Bool) : (clearStatus d e s).errcode = if e then 0x0#4 else s.errcode := rfl
@[simp] theorem clearStatus_acc (d e : Bool) : (clearStatus d e s).acc = s.acc := rfl
@[simp] theorem clearStatus_vmatch (d e : Bool) : (clearStatus d e s).vmatch = s.vmatch := rfl
@[simp] theorem clearStatus_pvalid (d e : Bool) : (clearStatus d e s).pvalid = s.pvalid := rfl
@[simp] theorem clearStatus_pval (d e : Bool) : (clearStatus d e s).pval = s.pval := rfl
@[simp] theorem clearStatus_buf (d e : Bool) : (clearStatus d e s).buf = s.buf := rfl
@[simp] theorem clearStatus_pending (d e : Bool) : (clearStatus d e s).pending = s.pending := rfl
@[simp] theorem clearStatus_held (d e : Bool) : (clearStatus d e s).held = s.held := rfl
@[simp] theorem clearStatus_resp (d e : Bool) : (clearStatus d e s).resp = s.resp := rfl
@[simp] theorem clearStatus_events (d e : Bool) : (clearStatus d e s).events = s.events := rfl

/-! ## commandError -/

@[simp] theorem commandError_cmd (e : CmdReject) : (commandError e s).cmd = s.cmd := rfl
@[simp] theorem commandError_busy (e : CmdReject) : (commandError e s).busy = s.busy := rfl
@[simp] theorem commandError_done (e : CmdReject) : (commandError e s).done = s.done := rfl
@[simp] theorem commandError_err (e : CmdReject) : (commandError e s).err = true := rfl
@[simp] theorem commandError_errcode (e : CmdReject) : (commandError e s).errcode = if s.err then s.errcode else rejectCode e := rfl
@[simp] theorem commandError_acc (e : CmdReject) : (commandError e s).acc = s.acc := rfl
@[simp] theorem commandError_vmatch (e : CmdReject) : (commandError e s).vmatch = s.vmatch := rfl
@[simp] theorem commandError_pvalid (e : CmdReject) : (commandError e s).pvalid = s.pvalid := rfl
@[simp] theorem commandError_pval (e : CmdReject) : (commandError e s).pval = s.pval := rfl
@[simp] theorem commandError_buf (e : CmdReject) : (commandError e s).buf = s.buf := rfl
@[simp] theorem commandError_pending (e : CmdReject) : (commandError e s).pending = s.pending := rfl
@[simp] theorem commandError_held (e : CmdReject) : (commandError e s).held = s.held := rfl
@[simp] theorem commandError_resp (e : CmdReject) : (commandError e s).resp = s.resp := rfl
@[simp] theorem commandError_events (e : CmdReject) : (commandError e s).events = s.events := rfl

/-! ## acceptCommand -/

@[simp] theorem acceptCommand_cmd (w : Word) (c : Command) : (acceptCommand w c s).cmd = w := rfl
@[simp] theorem acceptCommand_busy (w : Word) (c : Command) : (acceptCommand w c s).busy = true := rfl
@[simp] theorem acceptCommand_done (w : Word) (c : Command) : (acceptCommand w c s).done = s.done := rfl
@[simp] theorem acceptCommand_err (w : Word) (c : Command) : (acceptCommand w c s).err = s.err := rfl
@[simp] theorem acceptCommand_errcode (w : Word) (c : Command) : (acceptCommand w c s).errcode = s.errcode := rfl
@[simp] theorem acceptCommand_acc (w : Word) (c : Command) : (acceptCommand w c s).acc = s.acc := rfl
@[simp] theorem acceptCommand_vmatch (w : Word) (c : Command) : (acceptCommand w c s).vmatch = s.vmatch := rfl
@[simp] theorem acceptCommand_pvalid (w : Word) (c : Command) : (acceptCommand w c s).pvalid = s.pvalid := rfl
@[simp] theorem acceptCommand_pval (w : Word) (c : Command) : (acceptCommand w c s).pval = s.pval := rfl
@[simp] theorem acceptCommand_buf (w : Word) (c : Command) : (acceptCommand w c s).buf = s.buf := rfl
@[simp] theorem acceptCommand_pending (w : Word) (c : Command) : (acceptCommand w c s).pending = some c := rfl
@[simp] theorem acceptCommand_held (w : Word) (c : Command) : (acceptCommand w c s).held = s.held := rfl
@[simp] theorem acceptCommand_resp (w : Word) (c : Command) : (acceptCommand w c s).resp = s.resp := rfl
@[simp] theorem acceptCommand_events (w : Word) (c : Command) : (acceptCommand w c s).events = s.events := rfl

/-! ## finishCommand -/

@[simp] theorem finishCommand_cmd (m : Memory) : (finishCommand m s).cmd = s.cmd := rfl
@[simp] theorem finishCommand_busy (m : Memory) : (finishCommand m s).busy = false := rfl
@[simp] theorem finishCommand_done (m : Memory) : (finishCommand m s).done = true := rfl
@[simp] theorem finishCommand_err (m : Memory) : (finishCommand m s).err = s.err := rfl
@[simp] theorem finishCommand_errcode (m : Memory) : (finishCommand m s).errcode = s.errcode := rfl
@[simp] theorem finishCommand_acc (m : Memory) : (finishCommand m s).acc = s.acc := rfl
@[simp] theorem finishCommand_vmatch (m : Memory) : (finishCommand m s).vmatch = s.vmatch := rfl
@[simp] theorem finishCommand_pvalid (m : Memory) : (finishCommand m s).pvalid = s.pvalid := rfl
@[simp] theorem finishCommand_pval (m : Memory) : (finishCommand m s).pval = s.pval := rfl
@[simp] theorem finishCommand_buf (m : Memory) : (finishCommand m s).buf = m := rfl
@[simp] theorem finishCommand_pending (m : Memory) : (finishCommand m s).pending = none := rfl
@[simp] theorem finishCommand_held (m : Memory) : (finishCommand m s).held = s.held := rfl
@[simp] theorem finishCommand_resp (m : Memory) : (finishCommand m s).resp = s.resp := rfl
@[simp] theorem finishCommand_events (m : Memory) : (finishCommand m s).events = s.events := rfl

/-! ## resetDevice -/

@[simp] theorem resetDevice_cmd : (resetDevice s).cmd = 0#32 := rfl
@[simp] theorem resetDevice_busy : (resetDevice s).busy = false := rfl
@[simp] theorem resetDevice_done : (resetDevice s).done = false := rfl
@[simp] theorem resetDevice_err : (resetDevice s).err = false := rfl
@[simp] theorem resetDevice_errcode : (resetDevice s).errcode = 0#4 := rfl
@[simp] theorem resetDevice_acc : (resetDevice s).acc = 0#8 := rfl
@[simp] theorem resetDevice_vmatch : (resetDevice s).vmatch = false := rfl
@[simp] theorem resetDevice_pvalid : (resetDevice s).pvalid = false := rfl
@[simp] theorem resetDevice_pval : (resetDevice s).pval = 0#8 := rfl
@[simp] theorem resetDevice_buf : (resetDevice s).buf = [] := rfl
@[simp] theorem resetDevice_pending : (resetDevice s).pending = none := rfl
@[simp] theorem resetDevice_held : (resetDevice s).held = s.held := rfl
@[simp] theorem resetDevice_resp : (resetDevice s).resp = s.resp := rfl
@[simp] theorem resetDevice_events : (resetDevice s).events = s.events := rfl

/-! ## withEvents -/

@[simp] theorem withEvents_cmd (es : List Event) : (withEvents es s).cmd = s.cmd := rfl
@[simp] theorem withEvents_busy (es : List Event) : (withEvents es s).busy = s.busy := rfl
@[simp] theorem withEvents_done (es : List Event) : (withEvents es s).done = s.done := rfl
@[simp] theorem withEvents_err (es : List Event) : (withEvents es s).err = s.err := rfl
@[simp] theorem withEvents_errcode (es : List Event) : (withEvents es s).errcode = s.errcode := rfl
@[simp] theorem withEvents_acc (es : List Event) : (withEvents es s).acc = s.acc := rfl
@[simp] theorem withEvents_vmatch (es : List Event) : (withEvents es s).vmatch = s.vmatch := rfl
@[simp] theorem withEvents_pvalid (es : List Event) : (withEvents es s).pvalid = s.pvalid := rfl
@[simp] theorem withEvents_pval (es : List Event) : (withEvents es s).pval = s.pval := rfl
@[simp] theorem withEvents_buf (es : List Event) : (withEvents es s).buf = s.buf := rfl
@[simp] theorem withEvents_pending (es : List Event) : (withEvents es s).pending = s.pending := rfl
@[simp] theorem withEvents_held (es : List Event) : (withEvents es s).held = s.held := rfl
@[simp] theorem withEvents_resp (es : List Event) : (withEvents es s).resp = s.resp := rfl
@[simp] theorem withEvents_events (es : List Event) : (withEvents es s).events = es := rfl

end Sys2Proof.Machine
end

