-- ==== Sys2Proof/Laws/Ops.lean ====
section
/-! SUPPORT. What each shared operation can do, said once, so that proofs about instructions cite it and unfold
nothing. -/

namespace Sys2Proof.Machine

/-! ## The stall -/

theorem whenIdle_busy (i : Instr) (act : State → State) (s : State) (h : s.busy = true) :
    whenIdle i act s = .next (holdTransaction i s) := by
  simp [whenIdle, h]

theorem whenIdle_idle (i : Instr) (act : State → State) (s : State) (h : s.busy = false) :
    whenIdle i act s = .next (act s) := by
  simp [whenIdle, h]

/-- A stalling instruction either is held or acts, and never stops. -/
theorem whenIdle_next {i : Instr} {act : State → State} {s t : State} (h : whenIdle i act s = .next t) :
    (s.busy = true ∧ t = holdTransaction i s) ∨ (s.busy = false ∧ t = act s) := by
  cases hb : s.busy
  · rw [whenIdle_idle i act s hb, Host.Outcome.next.injEq] at h
    exact .inr ⟨rfl, h.symm⟩
  · rw [whenIdle_busy i act s hb, Host.Outcome.next.injEq] at h
    exact .inl ⟨rfl, h.symm⟩

/-! ## Issuing a command -/

theorem issueCommand_accepted {w : Word} {c : Command} (s : State) (h : checkCommand w = .ok c) :
    issueCommand w s = acceptCommand w c s := by
  simp [issueCommand, h]

theorem issueCommand_rejected {w : Word} {e : CmdReject} (s : State) (h : checkCommand w = .error e) :
    issueCommand w s = commandError e s := by
  simp [issueCommand, h]

/-- Issuing a command word accepts it or records a command error. -/
theorem issueCommand_cases (w : Word) (s : State) :
    (∃ c, checkCommand w = .ok c ∧ issueCommand w s = acceptCommand w c s)
      ∨ ∃ e, checkCommand w = .error e ∧ issueCommand w s = commandError e s := by
  cases h : checkCommand w with
  | ok c => exact .inl ⟨c, rfl, issueCommand_accepted s h⟩
  | error e => exact .inr ⟨e, rfl, issueCommand_rejected s h⟩

/-- An accepted word's command lies in BUF. -/
theorem checkCommand_inRange {w : Word} {c : Command} (h : checkCommand w = .ok c) : c.inRange = true := by
  unfold checkCommand at h
  split at h
  · cases h
  · split at h
    · next hr => cases h; exact hr
    · cases h

/-- A legal ERRCODE: never above 3, never 0 when recorded. -/
theorem rejectCode_legal (e : CmdReject) : rejectCode e ≤ 0x3#4 ∧ rejectCode e ≠ 0x0#4 := by
  cases e <;> decide

/-! ## The completion step -/

theorem completeCommand_inRange (mode : List Block → List Block) {sb nb : BitVec 2} (s : State)
    (h : blocksInRange sb nb = true) :
    completeCommand mode sb nb s =
      .next (finishCommand
        (s.buf.writeBlocks sb.toNat (mode (s.buf.readBlocks sb.toNat (blockCount nb)))) s) := by
  simp [completeCommand, h]

theorem completeCommand_outOfRange (mode : List Block → List Block) {sb nb : BitVec 2} (s : State)
    (h : blocksInRange sb nb = false) :
    completeCommand mode sb nb s = .next (commandError .range s) := by
  simp [completeCommand, h]

/-- A completion finishes its command, or its range is the command error. -/
theorem completeCommand_next {mode : List Block → List Block} {sb nb : BitVec 2} {s t : State}
    (h : completeCommand mode sb nb s = .next t) :
    (blocksInRange sb nb = true ∧ t = finishCommand
        (s.buf.writeBlocks sb.toNat (mode (s.buf.readBlocks sb.toNat (blockCount nb)))) s)
      ∨ (blocksInRange sb nb = false ∧ t = commandError .range s) := by
  cases hr : blocksInRange sb nb
  · rw [completeCommand_outOfRange mode s hr, Host.Outcome.next.injEq] at h
    exact .inr ⟨rfl, h.symm⟩
  · rw [completeCommand_inRange mode s hr, Host.Outcome.next.injEq] at h
    exact .inl ⟨rfl, h.symm⟩

/-- The mode a command's operation stands for, under its key and the zero IV. -/
def commandMode (c : Command) : List Block → List Block :=
  match c.op with
  | .enc => cbcEncrypt (Config.cipherE (keyOf c.ksel)) zeroBlock
  | .dec => cbcDecrypt (Config.cipherD (keyOf c.ksel)) zeroBlock

end Sys2Proof.Machine
end

