-- ==== Sys2Proof/Laws/Exec.lean ====
section
/-! SUPPORT. Each instruction as the shared operations it is made of, so that a proof about it starts from their
lemmas. -/

namespace Sys2Proof.Machine

variable (s : State)

/-! ## Register, buffer and constant access -/

theorem exec_cmdRd : exec .cmdRd s = .next (respondRead s.cmd s) := rfl

theorem exec_statusRd : exec .statusRd s = .next (respondRead (statusWord s) s) := rfl

theorem exec_statusWr (d : Word) :
    exec (.statusWr d) s = .next (respondWrite (clearStatus (clearsDone d) (clearsErr d) s)) := rfl

theorem exec_bufRd (w : BitVec 4) :
    exec (.bufRd w) s = whenIdle (.bufRd w) (fun t => respondRead (t.buf.readWord w) t) s := rfl

theorem exec_bufWr (w : BitVec 4) (d : Word) :
    exec (.bufWr w d) s = whenIdle (.bufWr w d) (fun t => respondWrite (setBuf (t.buf.writeWord w d) t)) s := rfl

theorem exec_refRd (w : BitVec 2) : exec (.refRd w) s = .next (respondRead (constWord Config.ref w) s) := rfl

theorem exec_auth1rHdrRd (w : BitVec 2) :
    exec (.auth1rHdrRd w) s = .next (respondRead (constWord Config.auth1rHdr w) s) := rfl

theorem exec_auth2HdrRd (w : BitVec 2) :
    exec (.auth2HdrRd w) s = .next (respondRead (constWord Config.auth2Hdr w) s) := rfl

/-! ## Checksum unit -/

theorem exec_cksAccRd : exec .cksAccRd s = .next (respondRead (s.acc.setWidth 32) s) := rfl

theorem exec_cksAccWr (d : Word) : exec (.cksAccWr d) s = .next (respondWrite (setAcc (dataByte d) s)) := rfl

theorem exec_cksIn8 (d : Word) : exec (.cksIn8 d) s = .next (respondWrite (setAcc (s.acc + dataByte d) s)) := rfl

theorem exec_cksIn32 (d : Word) :
    exec (.cksIn32 d) s = .next (respondWrite (setAcc
      (s.acc + byteLane d 0 + byteLane d 1 + byteLane d 2 + byteLane d 3) s)) := rfl

theorem exec_cksHexRd : exec .cksHexRd s = .next (respondRead (formatWord s.acc) s) := rfl

theorem exec_cksVfyWr (d : Word) :
    exec (.cksVfyWr d) s = .next (respondWrite (setVerify (vfyMatch s.acc d) (vfyPvalid d) (vfyPval d) s)) := rfl

theorem exec_cksVfyRd : exec .cksVfyRd s = .next (respondRead (vfyWord s) s) := rfl

/-! ## CBC unit -/

theorem exec_cmdWr (d : Word) :
    exec (.cmdWr d) s = whenIdle (.cmdWr d) (fun t => respondWrite (issueCommand d t)) s := rfl

theorem exec_cbcEnc (k : KeySel) (sb nb : BitVec 2) :
    exec (.cbcEnc k sb nb) s =
      completeCommand (cbcEncrypt (Config.cipherE (keyOf k)) zeroBlock) sb nb s := rfl

theorem exec_cbcDec (k : KeySel) (sb nb : BitVec 2) :
    exec (.cbcDec k sb nb) s =
      completeCommand (cbcDecrypt (Config.cipherD (keyOf k)) zeroBlock) sb nb s := rfl

/-! ## All of them -/

/-- No instruction faults and none is refused: what stops a run stands around exec. -/
theorem exec_answers_next (i : Instr) (s : State) : ∃ t, exec i s = .next t := by
  cases i <;> exact ⟨_, rfl⟩

/-- A decoded command runs as its mode over its blocks. -/
theorem exec_toInstr (c : Command) (s : State) :
    exec c.toInstr s = completeCommand (commandMode c) c.sblk c.nbm1 s := by
  obtain ⟨op, ksel, sblk, nbm1⟩ := c
  cases op <;> rfl

/-- An accepted command finishes: BUF gets the result blocks, `busy` 0, `done` 1, nothing is pending. -/
theorem exec_toInstr_inRange {c : Command} (s : State) (h : c.inRange = true) :
    exec c.toInstr s = .next (finishCommand
      (s.buf.writeBlocks c.sblk.toNat
        (commandMode c (s.buf.readBlocks c.sblk.toNat (blockCount c.nbm1)))) s) := by
  rw [exec_toInstr, completeCommand_inRange _ s h]

@[simp] theorem commandMode_length (c : Command) (bs : List Block) : (commandMode c bs).length = bs.length := by
  obtain ⟨op, ksel, sblk, nbm1⟩ := c
  cases op
  · exact cbcEncrypt_length _ _ bs
  · exact cbcDecrypt_length _ _ bs

end Sys2Proof.Machine
end

