-- ==== Sys2Proof/Laws/PerInstr.lean ====
section
/-! SUPPORT. A family of statements made instruction by instruction: each encoding matches the row of the opcode table
that its instruction stands for, whatever its operands. -/

namespace Sys2Proof.Laws.EncodingMatchesRow

/-- A selector or CMD word, its format known, under the mask and match of a row of 30 R85 or R86. -/
def matchesBits (mask pattern : Nat) : Encoding → Prop
  | .bus sel _ => sel &&& BitVec.ofNat 9 mask = BitVec.ofNat 9 pattern
  | .cmd w => w &&& BitVec.ofNat 32 mask = BitVec.ofNat 32 pattern

/-- Mask and match of the instruction's row in spec/opcode_table.json. -/
def tableRow : Instr → Nat × Nat
  | .cmdRd => (0x1FF, 0x000)
  | .cmdWr _ => (0x1FF, 0x100)
  | .statusRd => (0x1FF, 0x004)
  | .statusWr _ => (0x1FF, 0x104)
  | .cksAccRd => (0x1FF, 0x008)
  | .cksAccWr _ => (0x1FF, 0x108)
  | .cksIn8 _ => (0x1FF, 0x10C)
  | .cksIn32 _ => (0x1FF, 0x110)
  | .cksHexRd => (0x1FF, 0x014)
  | .cksVfyWr _ => (0x1FF, 0x118)
  | .cksVfyRd => (0x1FF, 0x018)
  | .bufRd _ => (0x1C3, 0x040)
  | .bufWr _ _ => (0x1C3, 0x140)
  | .refRd _ => (0x1F3, 0x080)
  | .auth1rHdrRd _ => (0x1F3, 0x090)
  | .auth2HdrRd _ => (0x1F3, 0x0A0)
  | .cbcEnc _ _ _ => (0xFFFFCCEF, 0x00000001)
  | .cbcDec _ _ _ => (0xFFFFCCEF, 0x00000002)

/-- The encoding of an instruction matches its row. -/
def Statement (i : Instr) : Prop := matchesBits (tableRow i).1 (tableRow i).2 (encode i)

theorem cmdRd : Statement .cmdRd :=
  (by decide : 0x000#9 &&& 0x1FF#9 = 0x000#9)

theorem cmdWr (wdata : Word) : Statement (.cmdWr wdata) :=
  (by decide : 0x100#9 &&& 0x1FF#9 = 0x100#9)

theorem statusRd : Statement .statusRd :=
  (by decide : 0x004#9 &&& 0x1FF#9 = 0x004#9)

theorem statusWr (wdata : Word) : Statement (.statusWr wdata) :=
  (by decide : 0x104#9 &&& 0x1FF#9 = 0x104#9)

theorem cksAccRd : Statement .cksAccRd :=
  (by decide : 0x008#9 &&& 0x1FF#9 = 0x008#9)

theorem cksAccWr (wdata : Word) : Statement (.cksAccWr wdata) :=
  (by decide : 0x108#9 &&& 0x1FF#9 = 0x108#9)

theorem cksIn8 (wdata : Word) : Statement (.cksIn8 wdata) :=
  (by decide : 0x10C#9 &&& 0x1FF#9 = 0x10C#9)

theorem cksIn32 (wdata : Word) : Statement (.cksIn32 wdata) :=
  (by decide : 0x110#9 &&& 0x1FF#9 = 0x110#9)

theorem cksHexRd : Statement .cksHexRd :=
  (by decide : 0x014#9 &&& 0x1FF#9 = 0x014#9)

theorem cksVfyWr (wdata : Word) : Statement (.cksVfyWr wdata) :=
  (by decide : 0x118#9 &&& 0x1FF#9 = 0x118#9)

theorem cksVfyRd : Statement .cksVfyRd :=
  (by decide : 0x018#9 &&& 0x1FF#9 = 0x018#9)

theorem bufRd (w : BitVec 4) : Statement (.bufRd w) :=
  (by decide : ∀ w : BitVec 4, (0b001#3 ++ w ++ 0b00#2 : BitVec 9) &&& 0x1C3#9 = 0x040#9) w

theorem bufWr (w : BitVec 4) (wdata : Word) : Statement (.bufWr w wdata) :=
  (by decide : ∀ w : BitVec 4, (0b101#3 ++ w ++ 0b00#2 : BitVec 9) &&& 0x1C3#9 = 0x140#9) w

theorem refRd (w : BitVec 2) : Statement (.refRd w) :=
  (by decide : ∀ w : BitVec 2, (0b01000#5 ++ w ++ 0b00#2 : BitVec 9) &&& 0x1F3#9 = 0x080#9) w

theorem auth1rHdrRd (w : BitVec 2) : Statement (.auth1rHdrRd w) :=
  (by decide : ∀ w : BitVec 2, (0b01001#5 ++ w ++ 0b00#2 : BitVec 9) &&& 0x1F3#9 = 0x090#9) w

theorem auth2HdrRd (w : BitVec 2) : Statement (.auth2HdrRd w) :=
  (by decide : ∀ w : BitVec 2, (0b01010#5 ++ w ++ 0b00#2 : BitVec 9) &&& 0x1F3#9 = 0x0A0#9) w

/-- The words of one operation, for every key, first block and block count. -/
theorem cmdWord_matches (op : CbcOp) (k : KeySel) :
    ∀ sb nb : BitVec 2, cmdWord op k sb nb &&& 0xFFFFCCEF#32 = (opBits op).setWidth 32 := by
  cases op <;> cases k <;> decide

theorem cbcEnc (ksel : KeySel) (sblk nbm1 : BitVec 2) : Statement (.cbcEnc ksel sblk nbm1) :=
  cmdWord_matches .enc ksel sblk nbm1

theorem cbcDec (ksel : KeySel) (sblk nbm1 : BitVec 2) : Statement (.cbcDec ksel sblk nbm1) :=
  cmdWord_matches .dec ksel sblk nbm1

end Sys2Proof.Laws.EncodingMatchesRow
end

