-- ==== Sys2Proof/Laws/Step.lean ====
section
/-! SUPPORT. What a step can do, said once: which agent moved and what its move was. -/

namespace Sys2Proof.Machine

/-- What a step that answers a next state did. -/
theorem step_cases {s t : State} (h : step s = .next t) :
    (∃ x es i, s.held = none ∧ s.events = .host x :: es ∧ decodeTxn x = .ok i
        ∧ exec i (withEvents es s) = .next t)
      ∨ (∃ c es, s.busy = true ∧ s.pending = some c ∧ exec c.toInstr (withEvents es s) = .next t)
      ∨ (∃ i es, s.held = some i ∧ s.busy = false ∧ exec i (releaseHold (withEvents es s)) = .next t)
      ∨ (∃ es, s.held = none ∧ s.events = .reset :: es ∧ t = resetDevice (withEvents es s))
      ∨ (s.held = none ∧ s.busy = false ∧ ∃ es, t = withEvents es s) := by
  have engine : ∀ es, s.busy = true → engineMove (withEvents es s) = .next t →
      ∃ c es, s.busy = true ∧ s.pending = some c ∧ exec c.toInstr (withEvents es s) = .next t := by
    intro es hb he
    cases hp : s.pending with
    | none => simp [engineMove, hp] at he
    | some c => exact ⟨c, es, hb, rfl, by simpa [engineMove, hp] using he⟩
  have self : withEvents s.events s = s := rfl
  cases hh : s.held with
  | none =>
    simp only [step, machineStep, hh, freeStep] at h
    cases he : s.events with
    | nil =>
      cases hb : s.busy
      · simp only [he, hb, Bool.false_eq_true, ↓reduceIte, Host.Outcome.next.injEq] at h
        exact .inr (.inr (.inr (.inr ⟨rfl, rfl, s.events, h.symm⟩)))
      · simp only [he, hb, ↓reduceIte] at h
        have := engine s.events hb (by rw [self]; exact h)
        rw [hb] at this
        exact .inr (.inl this)
    | cons e es =>
      cases e with
      | host x =>
        simp only [he, hostMove] at h
        cases hd : decodeTxn x with
        | error c => simp [hd] at h
        | ok i =>
          rw [hd] at h
          exact .inl ⟨x, es, i, rfl, rfl, hd, h⟩
      | engine =>
        cases hb : s.busy
        · simp only [he, hb, Bool.false_eq_true, ↓reduceIte, Host.Outcome.next.injEq] at h
          exact .inr (.inr (.inr (.inr ⟨rfl, rfl, es, h.symm⟩)))
        · simp only [he, hb, ↓reduceIte] at h
          have := engine es hb h
          rw [hb] at this
          exact .inr (.inl this)
      | reset =>
        simp only [he, resetMove, withEvents_held, hh, Host.Outcome.next.injEq] at h
        exact .inr (.inr (.inr (.inl ⟨es, rfl, rfl, h.symm⟩)))
  | some i =>
    simp only [step, machineStep, hh, heldStep] at h
    have held : ∀ es, heldMove i (withEvents es s) = .next t →
        (∃ c es, s.busy = true ∧ s.pending = some c ∧ exec c.toInstr (withEvents es s) = .next t)
          ∨ ∃ es, s.busy = false ∧ exec i (releaseHold (withEvents es s)) = .next t := by
      intro es hm
      cases hb : s.busy
      · exact .inr ⟨es, rfl, by simpa [heldMove, hb] using hm⟩
      · have := engine es hb (by simpa [heldMove, hb] using hm)
        rw [hb] at this
        exact .inl this
    have fin : (∃ c es, s.busy = true ∧ s.pending = some c ∧ exec c.toInstr (withEvents es s) = .next t)
        ∨ ∃ es, s.busy = false ∧ exec i (releaseHold (withEvents es s)) = .next t := by
      cases he : s.events with
      | nil =>
        simp only [he] at h
        exact held s.events (by rw [self]; exact h)
      | cons e es =>
        cases e with
        | host x =>
          simp only [he] at h
          exact held s.events (by rw [self]; exact h)
        | engine =>
          simp only [he] at h
          exact held es h
        | reset => simp [he, resetMove, hh] at h
    rcases fin with he | ⟨es, hb, hx⟩
    · exact .inr (.inl he)
    · exact .inr (.inr (.inl ⟨i, es, rfl, hb, hx⟩))

/-! ## Runs -/

/-- A run whose first step answers goes on from there. -/
theorem run_of_step {s t : State} (k : Nat) (h : step s = .next t) : core.run (k + 1) s = core.run k t := by
  have h' : core.step s = .next t := h
  simp only [Host.Core.run, h']

/-- A run whose first step faults ends there. -/
theorem run_of_fault {s : State} {f : Fault} (k : Nat) (h : step s = .fault f) :
    core.run (k + 1) s = .fault f := by
  have h' : core.step s = .fault f := h
  simp only [Host.Core.run, h']

/-- A run whose first step is refused ends there. -/
theorem run_of_refused {s : State} {r : Refusal} (k : Nat) (h : step s = .refused r) :
    core.run (k + 1) s = .refused r := by
  have h' : core.step s = .refused r := h
  simp only [Host.Core.run, h']

end Sys2Proof.Machine
end

