-- ==== Sys2Proof/Laws/Text.lean ====
section
/-! SUPPORT. The hex digits, read and written, and the checksum of sequences put together. -/

namespace Sys2Proof.Machine

@[simp] theorem checksum_nil : checksum [] = 0x00#8 := rfl

@[simp] theorem checksum_cons (b : Byte) (p : List Byte) : checksum (b :: p) = b + checksum p := rfl

theorem checksum_append (p q : List Byte) : checksum (p ++ q) = checksum p + checksum q := by
  induction p with
  | nil => simp
  | cons b p ih => simp [ih, BitVec.add_assoc]

/-- A folded character is the digit `n` exactly when it is a hex digit of value `n`. -/
theorem fold_eq_hexchar : ∀ (c : Byte) (n : BitVec 4),
    fold c = hexchar n ↔ ishex c = true ∧ hexval c = n.setWidth 8 := by
  decide +kernel

theorem hexval_le : ∀ c : Byte, ishex c = true → hexval c ≤ 15#8 := by
  decide +kernel

theorem nibbles_join : ∀ b : Byte, 16#8 * (highNibble b).setWidth 8 + (lowNibble b).setWidth 8 = b := by
  decide +kernel

end Sys2Proof.Machine
end

