-- ==== Sys2Proof/Tests/Aes.lean ====
section
/-! SUPPORT. AES-128 encryption, for tests only: the cipher of the spec's test instantiation T1 (95 section 0), which
nothing in the model assumes (93 GK2). -/

namespace Sys2Proof.Tests

open Sys2Proof.Machine

/-- The S-box, entry `i` in bits `[8i+7:8i]` (FIPS-197). -/
def aesSboxTable : BitVec 2048 :=
    0x16bb54b00f2d99416842e6bf0d89a18cdf2855cee9871e9b948ed9691198f8e1#256 ++
    0x9e1dc186b95735610ef6034866b53e708a8bbd4b1f74dde8c6b4a61c2e2578ba#256 ++
    0x08ae7a65eaf4566ca94ed58d6d37c8e779e4959162acd3c25c2406490a3a32e0#256 ++
    0xdb0b5ede14b8ee4688902a22dc4f816073195d643d7ea7c41744975fec130ccd#256 ++
    0xd2f3ff1021dab6bcf5389d928f40a351a89f3c507f02f94585334d43fbaaefd0#256 ++
    0xcf584c4a39becb6a5bb1fc20ed00d153842fe329b3d63b52a05a6e1b1a2c8309#256 ++
    0x75b227ebe28012079a059618c323c7041531d871f1e5a534ccf73f362693fdb7#256 ++
    0xc072a49cafa2d4adf04759fa7dc982ca76abd7fe2b670130c56f6bf27b777c63#256

def aesSbox (b : Byte) : Byte := aesSboxTable.extractLsb' (8 * b.toNat) 8

/-- Multiplication by x in GF(2^8). -/
def aesXtime (b : Byte) : Byte := (b <<< 1) ^^^ (if b.getLsbD 7 then 0x1B#8 else 0x00#8)

/-- One column of MixColumns. -/
def aesMixColumn (a b c d : Byte) : List Byte :=
  [ aesXtime a ^^^ aesXtime b ^^^ b ^^^ c ^^^ d, a ^^^ aesXtime b ^^^ aesXtime c ^^^ c ^^^ d,
    a ^^^ b ^^^ aesXtime c ^^^ aesXtime d ^^^ d, aesXtime a ^^^ a ^^^ b ^^^ c ^^^ aesXtime d ]

def aesMixColumns : List Byte → List Byte
  | a :: b :: c :: d :: l => aesMixColumn a b c d ++ aesMixColumns l
  | l => l

/-- SubBytes and ShiftRows: byte `r + 4c` comes from byte `r + 4(c + r)`. -/
def aesSubShift (s : List Byte) : List Byte :=
  [0, 5, 10, 15, 4, 9, 14, 3, 8, 13, 2, 7, 12, 1, 6, 11].map fun i => aesSbox (s.getD i 0#8)

def aesAdd (s k : List Byte) : List Byte := List.zipWith (· ^^^ ·) s k

/-- The next round key. -/
def aesNextKey (rcon : Byte) (k : List Byte) : List Byte :=
  let g i := k.getD i 0#8
  let w0 := aesAdd (k.take 4) [aesSbox (g 13) ^^^ rcon, aesSbox (g 14), aesSbox (g 15), aesSbox (g 12)]
  let w1 := aesAdd ((k.drop 4).take 4) w0
  let w2 := aesAdd ((k.drop 8).take 4) w1
  w0 ++ w1 ++ w2 ++ aesAdd (k.drop 12) w2

/-- The rounds, one for each round constant; the last has no MixColumns. -/
def aesRounds : List Byte → List Byte → List Byte → List Byte
  | [], _, s => s
  | [r], k, s => aesAdd (aesSubShift s) (aesNextKey r k)
  | r :: rs, k, s => aesRounds rs (aesNextKey r k) (aesAdd (aesMixColumns (aesSubShift s)) (aesNextKey r k))

/-- AES-128 encryption of one block. -/
def aesEncrypt (key block : Block) : Block :=
  blockAt (aesRounds [0x01#8, 0x02#8, 0x04#8, 0x08#8, 0x10#8, 0x20#8, 0x40#8, 0x80#8, 0x1B#8, 0x36#8]
    key.toList (aesAdd block.toList key.toList)) 0

/-- The block a hex string spells, first byte first. -/
def hexBlock (n : BitVec 128) : Block := Vector.ofFn fun i : Fin 16 => n.extractLsb' (8 * (15 - i.val)) 8

end Sys2Proof.Tests
end

