-- ==== Sys2Proof/Tests/Slice0.lean ====
section
/-! SUPPORT. Tests, their expected values taken from the spec (95_test_vectors.md and the examples of the rules, named in
each comment), and one witness for each statement that has hypotheses. -/

namespace Sys2Proof.Tests

open Sys2Proof.Machine

/-! ## Helpers -/

/-- A field of the next state, none when a step stops. -/
def after {α : Type} (o : Host.Outcome State Fault Refusal) (f : State → α) : Option α :=
  match o with
  | .next t => some (f t)
  | .fault _ => none
  | .refused _ => none

/-- The fault of a step. -/
def faultOf (o : Host.Outcome State Fault Refusal) : Option Fault :=
  match o with
  | .next _ => none
  | .fault f => some f
  | .refused _ => none

/-- A state whose accumulator holds `v`. -/
def withAcc (v : Byte) : State := setAcc v State.reset

/-- `cbc.dec 1, 1, 3`. -/
def decBody : Command := ⟨.dec, .d2h, 1#2, 2#2⟩

/-- The state after vector A1: CMD word `0x0000_2112` was accepted. -/
def running : State := acceptCommand 0x00002112#32 decBody State.reset

/-! ## Well-formedness: the range check on each of the two commands -/

theorem test_enc_range_refused : Instr.wellFormed (.cbcEnc .h2d 3#2 1#2) = false := by decide

theorem test_dec_range_refused : Instr.wellFormed (.cbcDec .d2h 2#2 2#2) = false := by decide

theorem test_last_block_accepted : Instr.wellFormed (.cbcEnc .h2d 3#2 0#2) = true := by decide

/-! ## Decoding: every row, its word written out from 30 R85 and R86 -/

theorem test_decode_control :
    decode (.bus 0b000000000#9 7#32) = .ok .cmdRd
      ∧ decode (.bus 0b100000000#9 7#32) = .ok (.cmdWr 7#32)
      ∧ decode (.bus 0b000000100#9 7#32) = .ok .statusRd
      ∧ decode (.bus 0b100000100#9 7#32) = .ok (.statusWr 7#32) := by decide

theorem test_decode_checksum :
    decode (.bus 0b000001000#9 7#32) = .ok .cksAccRd
      ∧ decode (.bus 0b100001000#9 7#32) = .ok (.cksAccWr 7#32)
      ∧ decode (.bus 0b100001100#9 7#32) = .ok (.cksIn8 7#32)
      ∧ decode (.bus 0b100010000#9 7#32) = .ok (.cksIn32 7#32)
      ∧ decode (.bus 0b000010100#9 7#32) = .ok .cksHexRd
      ∧ decode (.bus 0b100011000#9 7#32) = .ok (.cksVfyWr 7#32)
      ∧ decode (.bus 0b000011000#9 7#32) = .ok .cksVfyRd := by decide

theorem test_decode_windows :
    decode (.bus 0b001110100#9 7#32) = .ok (.bufRd 13#4)
      ∧ decode (.bus 0b101110100#9 7#32) = .ok (.bufWr 13#4 7#32)
      ∧ decode (.bus 0b010000100#9 7#32) = .ok (.refRd 1#2)
      ∧ decode (.bus 0b010011000#9 7#32) = .ok (.auth1rHdrRd 2#2)
      ∧ decode (.bus 0b010101100#9 7#32) = .ok (.auth2HdrRd 3#2) := by decide

theorem test_decode_commands :
    decode (.cmd 0b00000000000000000000001100000001#32) = .ok (.cbcEnc .h2d 3#2 0#2)
      ∧ decode (.cmd 0b00000000000000000010000100010010#32) = .ok (.cbcDec .d2h 1#2 2#2) := by decide

/-- Vectors B5 to B12: the cause of each erroneous transaction. -/
theorem test_bus_errors :
    decodeTxn ⟨.write, 0x80#8, 4, 0#32⟩ = .error .direction
      ∧ decodeTxn ⟨.read, 0x0C#8, 4, 0#32⟩ = .error .direction
      ∧ decodeTxn ⟨.write, 0x14#8, 4, 0#32⟩ = .error .direction
      ∧ decodeTxn ⟨.read, 0x1C#8, 4, 0#32⟩ = .error .reserved
      ∧ decodeTxn ⟨.read, 0xB0#8, 4, 0#32⟩ = .error .reserved
      ∧ decodeTxn ⟨.read, 0x42#8, 4, 0#32⟩ = .error .align
      ∧ decodeTxn ⟨.read, 0x40#8, 1, 0#32⟩ = .error .size
      ∧ decodeTxn ⟨.read, 0x1D#8, 2, 0#32⟩ = .error .size := by decide

/-- Vectors A2 to A8: the first failing check of each rejected word, and A1 and A9 accepted. -/
theorem test_command_checks :
    checkCommand 0x00003301#32 = .error .range ∧ checkCommand 0x00000003#32 = .error .badOp
      ∧ checkCommand 0x00000000#32 = .error .badOp ∧ checkCommand 0x00000021#32 = .error .rsvdBits
      ∧ checkCommand 0x80000003#32 = .error .rsvdBits ∧ checkCommand 0x00003003#32 = .error .badOp
      ∧ checkCommand 0x00003201#32 = .error .range ∧ checkCommand 0x00002112#32 = .ok decBody
      ∧ checkCommand 0x00000301#32 = .ok ⟨.enc, .h2d, 3#2, 0#2⟩ := by decide

/-- The two rows of a table word, and the selector's unused upper bits. -/
theorem test_table_words :
    decodeTableWord 16 0x10C = some (.cksIn8 0#32) ∧ decodeTableWord 32 0x3011 = some (.cbcEnc .d2h 0#2 3#2)
      ∧ decodeTableWord 16 0x20C = none ∧ decodeTableWord 16 0x01C = none := by decide

/-! ## Checksum unit -/

/-- K14. -/
theorem test_acc_write : after (exec (.cksAccWr 0xFFFFFF12#32) (withAcc 0x55#8)) State.acc = some 0x12#8 := by decide

/-- K3: the carry is discarded. -/
theorem test_in8_wraps : after (exec (.cksIn8 0x00000001#32) (withAcc 0xFF#8)) State.acc = some 0x00#8 := by decide

/-- K7: bits [31:8] are ignored. -/
theorem test_in8_low_byte : after (exec (.cksIn8 0xFFFFFFFF#32) State.reset) State.acc = some 0xFF#8 := by decide

/-- K8, first word: `"SETC"` gives `0x2F`. -/
theorem test_in32 : after (exec (.cksIn32 0x43544553#32) State.reset) State.acc = some 0x2F#8 := by decide

/-- 40 R105: `0x0A` reads `"0A"`; K14: `0x12` reads `"12"`. -/
theorem test_hex_read :
    after (exec .cksHexRd (withAcc 0x0A#8)) State.resp = some (some (.readData 0x00004130#32))
      ∧ after (exec .cksHexRd (withAcc 0x12#8)) State.resp = some (some (.readData 0x00003231#32)) := by decide

/-- 40 R106. -/
theorem test_acc_read :
    after (exec .cksAccRd (withAcc 0xED#8)) State.resp = some (some (.readData 0x000000ED#32)) := by decide

/-- K9, K16, K17, K18, K24: the fields after a verify. -/
theorem test_verify_fields :
    after (exec (.cksVfyWr 0x00024334#32) (withAcc 0x4B#8)) vfyWord = some 0x00004C02#32
      ∧ after (exec (.cksVfyWr 0x00026234#32) (withAcc 0x4B#8)) vfyWord = some 0x00004B03#32
      ∧ after (exec (.cksVfyWr 0x00024734#32) (withAcc 0x4B#8)) vfyWord = some 0x00000000#32
      ∧ after (exec (.cksVfyWr 0x00034234#32) (withAcc 0x4B#8)) vfyWord = some 0x00000000#32
      ∧ after (exec (.cksVfyWr 0x0002F0F0#32) State.reset) vfyWord = some 0x00000000#32 := by decide

/-- K21, K22. -/
theorem test_verify_folds :
    after (exec (.cksVfyWr 0x00026661#32) (withAcc 0xAF#8)) vfyWord = some 0x0000AF03#32
      ∧ after (exec (.cksVfyWr 0xFFFE4234#32) (withAcc 0x4B#8)) vfyWord = some 0x00004B03#32 := by decide

/-- 40 R111: the example of R110 reads `0x0000_4803`. -/
theorem test_verify_read :
    after (exec .cksVfyRd (setVerify true true 0x48#8 State.reset)) State.resp
      = some (some (.readData 0x00004803#32)) := by decide

/-- W1, W5, K10: checksums of `"VER"`, `"SETCMDLONG FF FF"` and `"ERRLOG GET 00"`. -/
theorem test_checksums :
    checksum [0x56#8, 0x45#8, 0x52#8] = 0xED#8
      ∧ checksum [0x53#8, 0x45#8, 0x54#8, 0x43#8, 0x4D#8, 0x44#8, 0x4C#8, 0x4F#8, 0x4E#8, 0x47#8, 0x20#8, 0x46#8,
          0x46#8, 0x20#8, 0x46#8, 0x46#8] = 0x48#8
      ∧ checksum [0x45#8, 0x52#8, 0x52#8, 0x4C#8, 0x4F#8, 0x47#8, 0x20#8, 0x47#8, 0x45#8, 0x54#8, 0x20#8, 0x30#8,
          0x30#8] = 0x4B#8 := by decide

/-! ## Register, buffer and constant access -/

/-- 42 R181: while it runs, the command being performed. -/
theorem test_cmd_read :
    after (exec .cmdRd running) State.resp = some (some (.readData 0x00002112#32)) := by decide

/-- 42 R183: `done = 1, err = 1, errcode = 3` reads `0x0000_0036`. -/
theorem test_status_read :
    after (exec .statusRd { State.reset with done := true, err := true, errcode := 3#4 }) State.resp
      = some (some (.readData 0x00000036#32)) := by decide

/-- B16: STATUS then reads `0x0000_0001`. -/
theorem test_status_write :
    after (exec (.statusWr 0xFFFFFFFF#32)
      { State.reset with busy := true, done := true, err := true, errcode := 3#4 }) statusWord
      = some 0x00000001#32 := by decide

/-- B1: `BUF[4..7] = 55 66 77 88`. -/
theorem test_buf_write :
    after (exec (.bufWr 1#4 0x88776655#32) State.reset) (fun t => t.buf)
      = some [(4, 0x55#8), (5, 0x66#8), (6, 0x77#8), (7, 0x88#8)] := by decide

/-- B2: the word reads back; and a stored zero byte is not listed. -/
theorem test_buf_read :
    after (exec (.bufRd 1#4) { State.reset with buf := [(4, 0x55#8), (5, 0x66#8), (6, 0x77#8), (7, 0x88#8)] })
        State.resp = some (some (.readData 0x88776655#32))
      ∧ after (exec (.bufWr 1#4 0x88006655#32) { State.reset with buf := [(6, 0x77#8)] }) (fun t => t.buf)
        = some [(4, 0x55#8), (5, 0x66#8), (7, 0x88#8)] := by decide

/-- B3 and B4 under T1: words 0 and 3 of `REF = 0123456789abcdeffedcba9876543210`. -/
theorem test_constant_words :
    constWord (hexBlock 0x0123456789abcdeffedcba9876543210#128) 0#2 = 0x67452301#32
      ∧ constWord (hexBlock 0x0123456789abcdeffedcba9876543210#128) 3#2 = 0x10325476#32 := by decide

/-- 42 R188 to R190: each window answers its own constant. -/
theorem test_constant_reads (s : State) :
    after (exec (.refRd 2#2) s) State.resp = some (some (.readData (constWord Config.ref 2#2)))
      ∧ after (exec (.auth1rHdrRd 2#2) s) State.resp = some (some (.readData (constWord Config.auth1rHdr 2#2)))
      ∧ after (exec (.auth2HdrRd 2#2) s) State.resp = some (some (.readData (constWord Config.auth2Hdr 2#2))) :=
  ⟨rfl, rfl, rfl⟩

/-! ## CBC unit -/

/-- A1: accepted, `busy = 1`, STATUS `0x0000_0001`, CMD the word. -/
theorem test_cmd_accepted :
    after (exec (.cmdWr 0x00002112#32) State.reset) (fun t => (statusWord t, t.cmd, t.pending))
      = some (0x00000001#32, 0x00002112#32, some decBody) := by decide

/-- A2, then A10: rejected with code 3, which a later rejection keeps. -/
theorem test_cmd_rejected :
    after (exec (.cmdWr 0x00003301#32) State.reset) (fun t => (statusWord t, t.cmd, t.pending))
        = some (0x00000034#32, 0x00000000#32, none)
      ∧ after (exec (.cmdWr 0x00000021#32) { State.reset with err := true, errcode := 3#4 }) statusWord
        = some 0x00000034#32 := by decide

/-- A1, second half: after the completion STATUS is `0x0000_0002` and nothing is pending. -/
theorem test_completion_status :
    after (exec (.cbcDec .d2h 1#2 2#2) running) (fun t => (statusWord t, t.pending))
      = some (0x00000002#32, none) := by decide

/-- 41 R149: KSEL 1 with encryption uses `KEY_D2H`; one block is the bare cipher (R144 (c)). -/
theorem test_enc_key :
    after (exec (.cbcEnc .d2h 0#2 0#2) State.reset) (fun t => t.buf)
      = some (Memory.writeBlocks [] 0 [Config.cipherE Config.keyD2H (xor16 (Memory.readBlock [] 0) zeroBlock)]) :=
  rfl

/-- FIPS-197 C.1 (93 GK5), which is vector V1: the cipher the two tests below use. -/
theorem test_aes :
    aesEncrypt (hexBlock 0x000102030405060708090a0b0c0d0e0f#128) (hexBlock 0x00112233445566778899aabbccddeeff#128)
      = hexBlock 0x69c4e0d86a7b0430d8cdb78070b4c55a#128 := by decide +kernel

/-- V7 under T1: two equal plaintext blocks, so that the chaining shows. -/
theorem test_cbc_encrypt_chains :
    cbcEncrypt (aesEncrypt (hexBlock 0x000102030405060708090a0b0c0d0e0f#128)) zeroBlock
        [hexBlock 0x00112233445566778899aabbccddeeff#128, hexBlock 0x00112233445566778899aabbccddeeff#128]
      = [hexBlock 0x69c4e0d86a7b0430d8cdb78070b4c55a#128, hexBlock 0x7d7786be32d059a60ca8021a65dd9f09#128] := by
  decide +kernel

/-- 41 R143 by hand, with `D = id`: each block is xored with the INPUT block before it. -/
theorem test_cbc_decrypt_chains :
    cbcDecrypt id zeroBlock
        [hexBlock 0x01000000000000000000000000000000#128, hexBlock 0x03000000000000000000000000000080#128,
          hexBlock 0x07000000000000000000000000000000#128]
      = [hexBlock 0x01000000000000000000000000000000#128, hexBlock 0x02000000000000000000000000000080#128,
          hexBlock 0x04000000000000000000000000000080#128] := by
  decide +kernel

/-! ## Steps -/

/-- B13: a BUF read while a command runs is held. -/
theorem test_read_held :
    after (step { running with events := [.host ⟨.read, 0x40#8, 4, 0#32⟩] }) (fun t => (t.held, t.resp, t.busy))
      = some (some (.bufRd 0#4), none, true) := by decide

/-- B14: an erroneous one is answered at once. -/
theorem test_error_not_held :
    faultOf (step { running with events := [.host ⟨.read, 0x42#8, 4, 0#32⟩] })
      = some (.busError .align 0x42#8) := by decide

/-- B18: a checksum write while a command runs is answered at once. -/
theorem test_checksum_not_held :
    after (step { running with events := [.host ⟨.write, 0x0C#8, 4, 0x41#32⟩] }) (fun t => (t.acc, t.busy))
      = some (0x41#8, true) := by decide

/-- With the inputs exhausted the pending command completes (41 R151). -/
theorem test_completion_step :
    after (step running) (fun t => (t.busy, t.done, t.pending)) = some (false, true, none) := by decide

/-- 70 R242: reset abandons a pending command, `done` stays 0. -/
theorem test_reset_abandons :
    after (step { running with acc := 0x12#8, events := [.reset] }) id = some State.reset := by decide

/-- 70 R240, R242: a reset between a completion and the held transaction is refused. -/
theorem test_reset_after_completion_refused :
    (match core.run 2 { running with held := some (.bufRd 0#4), events := [.engine, .reset] } with
      | .refused r => some r
      | .next _ => none
      | .fault _ => none) = some Refusal.resetWhileOutstanding := by decide

/-- 70 R242: after the held CMD write was accepted a reset abandons its command, with none outstanding. -/
theorem test_reset_after_held_write :
    after (core.run 3 { running with held := some (.cmdWr 0x00000301#32), events := [.engine, .engine, .reset] })
      (fun t : State => (t.busy, t.done, t.pending, t.held)) = some (false, false, none, none) := by decide

/-- The first row of each kind, and the last, run as the first instruction after reset. -/
theorem test_placed_words_run :
    ([(16, 0x000), (16, 0x100), (16, 0x004), (16, 0x104), (16, 0x008), (16, 0x108), (16, 0x10C), (16, 0x110),
        (16, 0x014), (16, 0x118), (16, 0x018), (16, 0x040), (16, 0x140), (16, 0x080), (16, 0x090), (16, 0x0A0),
        (32, 0x00000001), (32, 0x00000002), (32, 0x00003301)] : List (Nat × Nat)).all
      (fun p => (decodeTableWord p.1 p.2).isSome
        && (after (step (State.reset.withFetchWord p.1 p.2)) (fun _ => true)).isSome) = true := by decide

/-! ## Witnesses: a state and operands that meet the hypotheses of each statement that has any -/

/-- The running state meets the invariant. -/
theorem running_invariant : Invariant running :=
  { bufCanonical := Memory.wf_nil
    busyPending := by decide
    errCode := by decide
    codeLegal := by decide
    cmdLegal := .inr ⟨decBody, by decide⟩
    pendingIsCmd := fun c h => by
      have hc : decBody = c := Option.some.inj h
      subst hc
      decide
    pvalZero := by decide
    matchValid := by decide
    heldStalls := fun i h => nomatch h }

/-- The running state with a BUF read held. -/
def holding (es : List Event) : State := { running with held := some (.bufRd 0#4), events := es }

theorem holding_invariant (es : List Event) : Invariant (holding es) :=
  { running_invariant with
    heldStalls := fun i h => by
      have hi : Instr.bufRd 0#4 = i := Option.some.inj h
      subst hi
      rfl }

theorem witness_EncodeOfDecodedIsTheWord :
    decode (.bus 0x10C#9 5#32) = .ok (.cksIn8 5#32) ∧ decode (.bus 0x07C#9 5#32) = .ok (.bufRd 15#4)
      ∧ decode (.cmd 0x00003311#32) = .ok (.cbcEnc .d2h 3#2 3#2) := by decide

theorem witness_CommandRowsMatchByMask :
    decode (.cmd 0x00003011#32) = .ok (.cbcEnc .d2h 0#2 3#2)
      ∧ decode (.cmd 0x00000302#32) = .ok (.cbcDec .h2d 3#2 0#2) := by decide

/-- A state with no transaction outstanding that is given transaction `t`, for each clause at the edges of its range. -/
theorem witness_BusErrorsComeInOrderBeforeAnyStall :
    (∃ s : State, s.held = none ∧ s.events = .host ⟨.read, 0x1D#8, 2, 0#32⟩ :: [])
      ∧ (0x42#8).extractLsb 1 0 ≠ 0b00#2
      ∧ (∀ off ∈ [0x1C#8, 0x3C#8, 0xB0#8, 0xFC#8], off.extractLsb 1 0 = 0b00#2
          ∧ (0x1C ≤ off.toNat ∧ off.toNat ≤ 0x3C ∨ 0xB0 ≤ off.toNat ∧ off.toNat ≤ 0xFC))
      ∧ (∀ off ∈ [0x80#8, 0xAC#8], off.extractLsb 1 0 = 0b00#2 ∧ 0x80 ≤ off.toNat ∧ off.toNat ≤ 0xAC)
      ∧ (∀ off ∈ [0x00#8, 0x18#8, 0x40#8, 0x7C#8], off.extractLsb 1 0 = 0b00#2
          ∧ (off.toNat ≤ 0x18 ∨ 0x40 ≤ off.toNat ∧ off.toNat ≤ 0xAC) ∧ off ≠ 0x0C#8 ∧ off ≠ 0x10#8
          ∧ off ≠ 0x14#8 ∧ ¬ (0x80 ≤ off.toNat ∧ off.toNat ≤ 0xAC)) :=
  ⟨⟨{ State.reset with events := [.host ⟨.read, 0x1D#8, 2, 0#32⟩] }, rfl, rfl⟩, by decide, by decide, by decide,
    by decide⟩

/-- `BASE` itself and `BASE + 255` are addresses in the window, and `BASE - 1` modulo the address width is not. -/
theorem witness_WindowOffsetIsAddressMinusBase :
    (∃ a : BitVec 32, Config.base.toNat ≤ a.toNat ∧ a.toNat < Config.base.toNat + 256)
      ∧ ∃ a : BitVec 32, ¬ (Config.base.toNat ≤ a.toNat ∧ a.toNat < Config.base.toNat + 256) := by
  refine ⟨⟨Config.base, Nat.le_refl _, by omega⟩, ?_⟩
  by_cases h : Config.base.toNat = 0
  · exact ⟨0x100#32, by rw [h]; decide⟩
  · exact ⟨0#32, fun hc => h (Nat.le_zero.mp hc.1)⟩

theorem witness_StepRunsTheDecodedTransaction :
    ∃ s : State, s.held = none ∧ s.events = .host ⟨.read, 0x04#8, 4, 0#32⟩ :: []
      ∧ decodeTxn ⟨.read, 0x04#8, 4, 0#32⟩ = .ok .statusRd :=
  ⟨{ State.reset with events := [.host ⟨.read, 0x04#8, 4, 0#32⟩] }, rfl, rfl, by decide⟩

theorem witness_StepRunsThePendingCommand :
    (running.busy = true ∧ running.pending = some decBody ∧ running.events = [])
      ∧ (holding [.engine]).events = .engine :: []
      ∧ (holding [.host ⟨.read, 0x04#8, 4, 0#32⟩]).held = some (.bufRd 0#4) :=
  ⟨⟨rfl, rfl, rfl⟩, rfl, rfl⟩

/-- The state a completion leaves while a BUF read is held. -/
def holdingDone (es : List Event) : State := { State.reset with done := true, held := some (.bufRd 0#4), events := es }

/-- A state for each clause: no input, a transaction, an engine turn and a reset at the head of the inputs. -/
theorem witness_StepPerformsTheHeldTransaction :
    ∀ es ∈ [[], [.host ⟨.read, 0x04#8, 4, 0#32⟩], [.engine], [Event.reset]],
      (holdingDone es).held = some (.bufRd 0#4) ∧ (holdingDone es).busy = false ∧ (holdingDone es).events = es :=
  fun _ _ => ⟨rfl, rfl, rfl⟩

theorem witness_PlacedTableWordRunsNext :
    decodeTableWord 16 0x17C = some (.bufWr 15#4 0#32) ∧ checkCommand (BitVec.ofNat 32 0x2112) = .ok decBody := by
  decide

theorem witness_IdleStepChangesNothing :
    (State.reset.held = none ∧ State.reset.busy = false ∧ State.reset.events = [])
      ∧ ∃ s : State, s.held = none ∧ s.busy = false ∧ s.events = .engine :: [] :=
  ⟨⟨rfl, rfl, rfl⟩, { State.reset with events := [.engine] }, rfl, rfl, rfl⟩

theorem witness_ResetStepSetsEveryField :
    ∃ s : State, s.held = none ∧ s.events = .reset :: [] ∧ s.busy = true :=
  ⟨{ running with events := [.reset] }, rfl, rfl, rfl⟩

/-- Before the completion and after it. -/
theorem witness_ResetWhileHeldIsRefused :
    ((holding [.reset]).held = some (.bufRd 0#4) ∧ (holding [.reset]).events = .reset :: [])
      ∧ (holdingDone [.reset]).held = some (.bufRd 0#4) ∧ (holdingDone [.reset]).events = .reset :: [] :=
  ⟨⟨rfl, rfl⟩, rfl, rfl⟩

theorem witness_StepKeepsTheInvariant : ∃ s t : State, Invariant s ∧ s.busy = true ∧ step s = .next t := by
  obtain ⟨t, h⟩ := exec_answers_next decBody.toInstr running
  exact ⟨running, t, running_invariant, rfl, h⟩

/-- Invariant states for each of the three ways a step ends. -/
theorem witness_StepStopsOnlyOnErrorOrReset :
    Invariant running ∧ Invariant (holding [.reset])
      ∧ Invariant { running with events := [.host ⟨.read, 0x1C#8, 4, 0#32⟩] } :=
  ⟨running_invariant, holding_invariant _, { running_invariant with }⟩

/-- Invariant running states for each end: completed, abandoned by a reset, and stopped in each of the two ways. -/
theorem witness_PendingCommandCompletesOrIsAbandonedOrStopped :
    (Invariant running ∧ running.busy = true ∧ after (step running) State.done = some true)
      ∧ (Invariant { running with events := [.reset] }
        ∧ after (step { running with events := [.reset] }) (fun t => (t.busy, t.done)) = some (false, false))
      ∧ (Invariant { running with events := [.host ⟨.read, 0x1C#8, 4, 0#32⟩] }
        ∧ faultOf (step { running with events := [.host ⟨.read, 0x1C#8, 4, 0#32⟩] })
          = some (.busError .reserved 0x1C#8))
      ∧ Invariant (holding [.reset]) ∧ step (holding [.reset]) = .refused .resetWhileOutstanding :=
  ⟨⟨running_invariant, rfl, by decide⟩, ⟨{ running_invariant with }, by decide⟩,
    ⟨{ running_invariant with }, by decide⟩, holding_invariant _, rfl⟩

theorem witness_PendingCommandCompletesWithoutStop :
    Invariant (holding [.host ⟨.read, 0x04#8, 4, 0#32⟩, .engine])
      ∧ (holding [.host ⟨.read, 0x04#8, 4, 0#32⟩, .engine]).busy = true
      ∧ ∀ e ∈ (holding [.host ⟨.read, 0x04#8, 4, 0#32⟩, .engine]).events,
        e = .engine ∨ ∃ t i, e = .host t ∧ decodeTxn t = .ok i := by
  refine ⟨holding_invariant _, rfl, fun e he => ?_⟩
  rcases List.mem_cons.mp he with rfl | he
  · exact .inr ⟨_, .statusRd, rfl, by decide⟩
  · exact .inl (List.mem_singleton.mp he)

theorem witness_CommandsAreSerialised :
    ∃ s : State, s.busy = true ∧ s.pending = some decBody ∧ decBody.inRange = true ∧ s.held = none
      ∧ s.events = .host ⟨.write, 0x00#8, 4, 0x00000301#32⟩ :: ([] : List Txn).map .host :=
  ⟨{ running with events := [.host ⟨.write, 0x00#8, 4, 0x00000301#32⟩] }, rfl, rfl, by decide, rfl, rfl⟩

theorem witness_StatusReadComesBeforeOrAfterTheCompletion :
    running.busy = true ∧ running.pending = some decBody ∧ decBody.inRange = true ∧ running.held = none :=
  ⟨rfl, rfl, by decide, rfl⟩

theorem witness_WordAddEqualsFourByteAddsInAnyOrder :
    List.Perm [4#8, 3#8, 2#8, 1#8] [1#8, 2#8, 3#8, 4#8] := by decide

theorem witness_MatchIsValidAndEqualToTheAccumulator :
    ∃ t : State, exec (.cksVfyWr 0x00026234#32) (withAcc 0x4B#8) = .next t ∧ t.vmatch = true :=
  ⟨_, rfl, by decide⟩

theorem witness_FeedingAPayloadComputesItsChecksum :
    ∀ i ∈ [Instr.cksIn8 0x41#32, .cmdWr 0x00000001#32, .bufRd 0#4, .cbcEnc .h2d 0#2 0#2, .cksIn32 0x04030201#32],
      ∀ d, i ≠ .cksAccWr d := by
  intro i hi d h
  subst h
  simp at hi

theorem witness_CbcDefinitions :
    ∃ (ps : List Block) (p c : Block), ps[0]? = some p ∧ ps[0 + 1]? = some p
      ∧ (cbcEncrypt (Config.cipherE zeroBlock) zeroBlock ps)[0]? = some c :=
  ⟨[zeroBlock, zeroBlock], zeroBlock, _, rfl, rfl, rfl⟩

theorem witness_CbcBlocksDependOnEarlierInputOnly :
    ∃ xs ys : List Block, xs ≠ ys ∧ 1 < xs.length ∧ 1 < ys.length ∧ ∀ j, j ≤ 1 → xs[j]? = ys[j]? :=
  ⟨[zeroBlock, zeroBlock], [zeroBlock, zeroBlock, zeroBlock], by decide, by decide, by decide, by decide⟩

/-- For CmdWriteAcceptsOrRejects, BufReadAnswersTheWord and BufWriteStoresTheWord: an idle and a running state. -/
theorem witness_IdleAndBusy : State.reset.busy = false ∧ running.busy = true := ⟨rfl, rfl⟩

/-- For the statements about commands (EncryptCommandEncryptsItsBlocks, DecryptCommandDecryptsItsBlocks,
OutOfRangeCommandIsACommandError), the ranges at their edges: in range with the last block and with all four, out of
range by one. -/
theorem witness_CommandRanges :
    (3#2).toNat + ((0#2).toNat + 1) ≤ 4 ∧ (0#2).toNat + ((3#2).toNat + 1) ≤ 4
      ∧ 4 < (3#2).toNat + ((1#2).toNat + 1) := by decide

theorem witness_EncryptThenDecryptRestoresBuf :
    ∃ s t u : State, s.buf.wf ∧ blocksInRange 1#2 2#2 = true
      ∧ exec (.cbcEnc .h2d 1#2 2#2) s = .next t ∧ exec (.cbcDec .h2d 1#2 2#2) t = .next u :=
  ⟨State.reset, _, _, Memory.wf_nil, by decide, rfl, rfl⟩

theorem witness_CommandResultDependsOnItsBlocksOnly :
    ∃ s' t t' : State, decBody.inRange = true ∧ s' ≠ State.reset
      ∧ (∀ i, 16 * decBody.sblk.toNat ≤ i → i < 16 * (decBody.sblk.toNat + blockCount decBody.nbm1) →
          s'.buf.read i = State.reset.buf.read i)
      ∧ exec decBody.toInstr State.reset = .next t ∧ exec decBody.toInstr s' = .next t' :=
  ⟨{ State.reset with buf := [(0, 0xA1#8)], acc := 7#8 }, _, _, by decide, by decide,
    fun i h _ => by
      have hi : (0 : Nat) ≠ i := by
        have : 16 ≤ i := h
        omega
      simp [Memory.read_cons, hi, State.reset], rfl, rfl⟩

theorem witness_BufWordReadsBackWhatWasWritten :
    ∃ t : State, State.reset.busy = false ∧ exec (.bufWr 1#4 0x88776655#32) State.reset = .next t
      ∧ (2#4 : BitVec 4) ≠ 1#4
      ∧ exec (.bufRd 2#4) State.reset = .next { State.reset with resp := some (.readData 0#32) } :=
  ⟨_, rfl, rfl, by decide, rfl⟩

/-- A read of each kind between two reads of one BUF word. -/
theorem witness_ReadsHaveNoSideEffects :
    isRead (.bufRd 0#4) = true ∧ ∀ r ∈ [Instr.statusRd, .cksHexRd, .bufRd 1#4, .refRd 0#2], isRead r = true := by
  decide

/-- The spellings `"4b"` and `"4B"` of `acc = 0x4B` (K16 and its upper case) meet the hypotheses of the last clause. -/
theorem witness_VerifyWriteComparesAndParses :
    (0x34#8 : Byte) = hexchar ((0x4B#8 : Byte).extractLsb 7 4)
      ∧ (0x42#8 : Byte) = hexchar ((0x4B#8 : Byte).extractLsb 3 0)
      ∧ 0x61 ≤ (0x62#8 : Byte).toNat ∧ (0x62#8 : Byte).toNat ≤ 0x66
      ∧ (0x62#8 : Byte).toNat = (hexchar ((0x4B#8 : Byte).extractLsb 3 0)).toNat + 0x20 := by decide

theorem witness_EachRegisterChangesOnlyByItsWriters :
    ∃ t : State, exec (.cmdWr 0x00002112#32) State.reset = .next t ∧ t.busy ≠ State.reset.busy :=
  ⟨_, rfl, by decide⟩

/-- Two states that agree on one unit and differ on the other, for each unit. -/
theorem witness_UnitsAreIndependent :
    (∃ t t' : State, SameCbcUnit State.reset (withAcc 5#8) ∧ exec (.cmdWr 0x00000001#32) State.reset = .next t
        ∧ exec (.cmdWr 0x00000001#32) (withAcc 5#8) = .next t')
      ∧ ∃ t t' : State, SameChecksumUnit State.reset running ∧ exec (.cksIn8 1#32) State.reset = .next t
        ∧ exec (.cksIn8 1#32) running = .next t' :=
  ⟨⟨_, _, ⟨⟨rfl, rfl, rfl, rfl⟩, ⟨rfl, rfl⟩, rfl⟩, rfl, rfl⟩, ⟨_, _, ⟨rfl, rfl, rfl, rfl⟩, rfl, rfl⟩⟩

theorem witness_UnitsLeaveEachOtherAlone :
    (∃ t : State, exec (.cksIn32 0x04030201#32) running = .next t)
      ∧ ∃ t : State, exec (.cbcEnc .h2d 0#2 3#2) running = .next t :=
  ⟨⟨_, rfl⟩, ⟨_, rfl⟩⟩

theorem witness_AuthDecryptCommandComputesThePlaintext :
    (List.replicate 64 0x00#8).length = 64
      ∧ ∀ i, i < 64 → State.reset.buf.read i = (List.replicate 64 0x00#8).getD i 0x00#8 := by
  refine ⟨by decide, fun i hi => ?_⟩
  rw [List.getD_eq_getElem _ _ (by simpa using hi), List.getElem_replicate]
  rfl

theorem witness_AuthEncryptCommandComputesTheBody :
    (List.replicate 48 0x00#8).length = 48
      ∧ ∀ i, i < 32 → State.reset.buf.read i = (authResponsePlain (List.replicate 48 0x00#8)).getD i 0x00#8 := by
  have h : authResponsePlain (List.replicate 48 0x00#8) = List.replicate 32 0x00#8 := by decide
  refine ⟨by decide, fun i hi => ?_⟩
  rw [h, List.getD_eq_getElem _ _ (by simpa using hi), List.getElem_replicate]
  rfl

/-- A valid plaintext: `Q[0:8)` free, `REF` and zeros where 41 R162 asks for them. -/
theorem witness_ValidPlaintextGivesTheSwappedResponse :
    ∃ q : List Byte, q.length = 48 ∧ authBodyValid q = true :=
  ⟨List.replicate 8 0x11#8 ++ List.replicate 8 0x00#8 ++ Config.ref.toList ++ List.replicate 16 0x00#8, by simp,
    by simp [authBodyValid, slice, List.drop_append, List.take_append]⟩

/-- Challenges of 64 bytes for each clause: a wrong header, a right header before a wrong body (`Q[15] = 1`), and a
right header before a valid body. -/
theorem witness_AuthAnswersByTheFirstFailingCheck :
    (∃ ch : List Byte, ch.length = 64 ∧ slice ch 0 16 ≠ Config.auth1rHdr.toList)
      ∧ (∃ ch : List Byte, ch.length = 64 ∧ slice ch 0 16 = Config.auth1rHdr.toList
          ∧ authBodyValid (authPlain ch) = false)
      ∧ ∃ ch : List Byte, ch.length = 64 ∧ slice ch 0 16 = Config.auth1rHdr.toList
          ∧ authBodyValid (authPlain ch) = true := by
  have hl : ∀ a b c : Block, (challengeOf [a, b, c]).length = 64 := fun a b c => by
    simp [challengeOf, blockBytes_length, cbcEncrypt]
  refine ⟨?_, ⟨challengeOf [hexBlock 1#128, zeroBlock, zeroBlock], hl _ _ _, challengeOf_header _, ?_⟩,
    ⟨challengeOf [zeroBlock, Config.ref, zeroBlock], hl _ _ _, challengeOf_header _, ?_⟩⟩
  · by_cases h : Config.auth1rHdr.toList = List.replicate 16 0x00#8
    · exact ⟨List.replicate 64 0x01#8, by simp, by rw [h]; decide⟩
    · exact ⟨List.replicate 64 0x00#8, by simp, fun hc => h (hc.symm.trans (by decide))⟩
  · rw [challengeOf_plain]
    rfl
  · rw [challengeOf_plain]
    simp [authBodyValid, slice, blockBytes, zeroBlock, List.drop_append, List.take_append]

end Sys2Proof.Tests
end

/-! ## The two units side by side (00 R3)

An instruction outside a unit's writers leaves that unit as it was, so two runs that agreed on the unit still agree; a
writer of a unit computes what it leaves there from that unit's fields and its own operands. -/

namespace Sys2Proof.Machine

variable {s s' t t' : State}

/-- The instructions that may write a field of the checksum unit (10 R27, R28). -/
def writesChecksumUnit : Instr → Bool
  | .cksAccWr _ | .cksIn8 _ | .cksIn32 _ | .cksVfyWr _ => true
  | .cmdRd | .cmdWr _ | .statusRd | .statusWr _ | .cksAccRd | .cksHexRd | .cksVfyRd => false
  | .bufRd _ | .bufWr _ _ | .refRd _ | .auth1rHdrRd _ | .auth2HdrRd _ => false
  | .cbcEnc _ _ _ | .cbcDec _ _ _ => false

/-- The instructions that may write a field of the CBC unit (10 R23 to R26, R30). -/
def writesCbcUnit : Instr → Bool
  | .cmdWr _ | .statusWr _ | .bufWr _ _ | .cbcEnc _ _ _ | .cbcDec _ _ _ => true
  | .cmdRd | .statusRd | .bufRd _ | .refRd _ | .auth1rHdrRd _ | .auth2HdrRd _ => false
  | .cksAccRd | .cksAccWr _ | .cksIn8 _ | .cksIn32 _ | .cksHexRd | .cksVfyWr _ | .cksVfyRd => false

/-! ### Frames -/

theorem sameCbcUnit_iff : SameCbcUnit s t ↔
    (t.busy = s.busy ∧ t.done = s.done ∧ t.err = s.err ∧ t.errcode = s.errcode)
      ∧ (t.cmd = s.cmd ∧ t.pending = s.pending) ∧ t.buf = s.buf := Iff.rfl

theorem issueCommand_sameChecksumUnit (w : Word) (s : State) : SameChecksumUnit s (issueCommand w s) := by
  obtain ⟨c, -, h⟩ | ⟨e, -, h⟩ := issueCommand_cases w s <;> simp [h, SameChecksumUnit]

theorem completeCommand_frame {mode : List Block → List Block} {sb nb : BitVec 2}
    (h : completeCommand mode sb nb s = .next t) : SameChecksumUnit s t ∧ SameBus s t := by
  obtain ⟨-, rfl⟩ | ⟨-, rfl⟩ := completeCommand_next h <;> simp [SameChecksumUnit, SameBus]

/-- The checksum unit is changed by its writers only. -/
theorem exec_sameChecksumUnit {i : Instr} (hi : writesChecksumUnit i = false) (h : exec i s = .next t) :
    SameChecksumUnit s t := by
  cases i with
  | cksAccWr _ | cksIn8 _ | cksIn32 _ | cksVfyWr _ => cases hi
  | cmdWr d =>
    obtain ⟨-, rfl⟩ | ⟨-, rfl⟩ := whenIdle_next (exec_cmdWr s d ▸ h)
    · simp [SameChecksumUnit]
    · exact issueCommand_sameChecksumUnit d s
  | bufRd w => obtain ⟨-, rfl⟩ | ⟨-, rfl⟩ := whenIdle_next (exec_bufRd s w ▸ h) <;> simp [SameChecksumUnit]
  | bufWr w d => obtain ⟨-, rfl⟩ | ⟨-, rfl⟩ := whenIdle_next (exec_bufWr s w d ▸ h) <;> simp [SameChecksumUnit]
  | cbcEnc _ _ _ | cbcDec _ _ _ => exact (completeCommand_frame h).1
  | _ => cases h; simp [SameChecksumUnit]

/-- The CBC unit is changed by its writers only. -/
theorem exec_sameCbcUnit {i : Instr} (hi : writesCbcUnit i = false) (h : exec i s = .next t) : SameCbcUnit s t := by
  cases i with
  | cmdWr _ | statusWr _ | bufWr _ _ | cbcEnc _ _ _ | cbcDec _ _ _ => cases hi
  | bufRd w =>
    obtain ⟨-, rfl⟩ | ⟨-, rfl⟩ := whenIdle_next (exec_bufRd s w ▸ h) <;> simp [sameCbcUnit_iff]
  | _ => cases h; simp [sameCbcUnit_iff]

/-- The hold and the inputs are changed by no instruction that does not stall (20 R66). -/
theorem exec_sameBus {i : Instr} (hi : stallsWhileBusy i = false) (h : exec i s = .next t) : SameBus s t := by
  cases i with
  | cmdWr _ | bufRd _ | bufWr _ _ => cases hi
  | cbcEnc _ _ _ | cbcDec _ _ _ => exact (completeCommand_frame h).2
  | _ => cases h; simp [SameBus]

/-- Settles O56: no checksum instruction writes the CBC unit or stalls, and no other instruction writes the checksum
unit. -/
theorem unitsLeaveEachOtherAlone : Obligations.UnitsLeaveEachOtherAlone := by
  refine fun s t => ⟨fun i d hi h => ?_, fun i d w v k sb nb hi h => exec_sameChecksumUnit ?_ h⟩
  · have hcks : writesCbcUnit i = false ∧ stallsWhileBusy i = false := by
      obtain rfl | rfl | rfl | rfl | rfl | rfl | rfl := hi <;> exact ⟨rfl, rfl⟩
    exact ⟨exec_sameCbcUnit hcks.1 h, exec_sameBus hcks.2 h⟩
  · obtain rfl | rfl | rfl | rfl | rfl | rfl | rfl | rfl | rfl | rfl | rfl := hi <;> rfl

/-! ### Two runs -/

/-- A unit that two runs leave alone still agrees. -/
theorem SameChecksumUnit.of_frames (hs : SameChecksumUnit s s') (h : SameChecksumUnit s t)
    (h' : SameChecksumUnit s' t') : SameChecksumUnit t t' := by
  simp_all [SameChecksumUnit]

theorem SameCbcUnit.of_frames (hs : SameCbcUnit s s') (h : SameCbcUnit s t) (h' : SameCbcUnit s' t') :
    SameCbcUnit t t' := by
  simp_all [sameCbcUnit_iff]

/-- What an instruction leaves in the checksum unit depends on the checksum unit alone. -/
theorem SameChecksumUnit.exec_congr {i : Instr} (hs : SameChecksumUnit s s') (h : exec i s = .next t)
    (h' : exec i s' = .next t') : SameChecksumUnit t t' := by
  cases hi : writesChecksumUnit i with
  | false => exact hs.of_frames (exec_sameChecksumUnit hi h) (exec_sameChecksumUnit hi h')
  | true =>
    obtain ⟨hacc, hvm, hpv, hpb⟩ := hs
    cases i with
    | cksAccWr _ | cksIn8 _ | cksIn32 _ | cksVfyWr _ =>
      cases h; cases h'; simp [SameChecksumUnit, hacc, hvm, hpv, hpb]
    | _ => cases hi

/-! Each operation on the CBC unit, made on two states that agree on it. -/

theorem sameCbcUnit_respondWrite :
    SameCbcUnit (respondWrite s) (respondWrite s') ↔ SameCbcUnit s s' := Iff.rfl

theorem SameCbcUnit.clearStatus_congr (hs : SameCbcUnit s s') (clrDone clrErr : Bool) :
    SameCbcUnit (clearStatus clrDone clrErr s) (clearStatus clrDone clrErr s') := by
  simp_all [sameCbcUnit_iff]

theorem SameCbcUnit.setBuf_congr (hs : SameCbcUnit s s') (m : Memory) : SameCbcUnit (setBuf m s) (setBuf m s') := by
  simp_all [sameCbcUnit_iff]

theorem SameCbcUnit.commandError_congr (hs : SameCbcUnit s s') (e : CmdReject) :
    SameCbcUnit (commandError e s) (commandError e s') := by
  simp_all [sameCbcUnit_iff]

theorem SameCbcUnit.acceptCommand_congr (hs : SameCbcUnit s s') (w : Word) (c : Command) :
    SameCbcUnit (acceptCommand w c s) (acceptCommand w c s') := by
  simp_all [sameCbcUnit_iff]

theorem SameCbcUnit.finishCommand_congr (hs : SameCbcUnit s s') (m : Memory) :
    SameCbcUnit (finishCommand m s) (finishCommand m s') := by
  simp_all [sameCbcUnit_iff]

/-- Whether a word is accepted is a matter of the word alone. -/
theorem SameCbcUnit.issueCommand_congr (hs : SameCbcUnit s s') (w : Word) :
    SameCbcUnit (issueCommand w s) (issueCommand w s') := by
  cases hw : checkCommand w with
  | ok c => simpa only [issueCommand_accepted _ hw] using hs.acceptCommand_congr w c
  | error e => simpa only [issueCommand_rejected _ hw] using hs.commandError_congr e

/-- Both runs stall or neither does, since BUSY belongs to the CBC unit. -/
theorem SameCbcUnit.whenIdle_congr {i : Instr} {act : State → State} (hs : SameCbcUnit s s')
    (h : whenIdle i act s = .next t) (h' : whenIdle i act s' = .next t') (hact : SameCbcUnit (act s) (act s')) :
    SameCbcUnit t t' := by
  have hbusy : s'.busy = s.busy := hs.1.1
  obtain ⟨hb, rfl⟩ | ⟨hb, rfl⟩ := whenIdle_next h <;> obtain ⟨hb', rfl⟩ | ⟨hb', rfl⟩ := whenIdle_next h'
  · simpa [sameCbcUnit_iff] using hs
  · simp [hb, hb'] at hbusy
  · simp [hb, hb'] at hbusy
  · exact hact

/-- A completion reads its input blocks from BUF, which belongs to the CBC unit. -/
theorem SameCbcUnit.completeCommand_congr {mode : List Block → List Block} {sb nb : BitVec 2} (hs : SameCbcUnit s s')
    (h : completeCommand mode sb nb s = .next t) (h' : completeCommand mode sb nb s' = .next t') :
    SameCbcUnit t t' := by
  have hbuf : s'.buf = s.buf := hs.2.2
  cases hr : blocksInRange sb nb with
  | true =>
    rw [completeCommand_inRange mode _ hr] at h h'
    cases h; cases h'
    simpa only [hbuf] using hs.finishCommand_congr _
  | false =>
    rw [completeCommand_outOfRange mode _ hr] at h h'
    cases h; cases h'
    exact hs.commandError_congr .range

/-- What an instruction leaves in the CBC unit depends on the CBC unit alone. -/
theorem SameCbcUnit.exec_congr {i : Instr} (hs : SameCbcUnit s s') (h : exec i s = .next t)
    (h' : exec i s' = .next t') : SameCbcUnit t t' := by
  cases hi : writesCbcUnit i with
  | false => exact hs.of_frames (exec_sameCbcUnit hi h) (exec_sameCbcUnit hi h')
  | true =>
    cases i with
    | cmdWr d =>
      rw [exec_cmdWr] at h h'
      exact hs.whenIdle_congr h h' (sameCbcUnit_respondWrite.mpr (hs.issueCommand_congr d))
    | statusWr d => cases h; cases h'; exact sameCbcUnit_respondWrite.mpr <| hs.clearStatus_congr _ _
    | bufWr w d =>
      have hbuf : s'.buf = s.buf := hs.2.2
      rw [exec_bufWr] at h h'
      refine hs.whenIdle_congr h h' (sameCbcUnit_respondWrite.mpr ?_)
      simpa only [hbuf] using hs.setBuf_congr (s.buf.writeWord w d)
    | cbcEnc _ _ _ | cbcDec _ _ _ => exact hs.completeCommand_congr h h'
    | _ => cases hi

/-- Settles O55, unit by unit. -/
theorem unitsAreIndependent : Obligations.UnitsAreIndependent :=
  fun _ _ _ _ _ h h' => ⟨fun hs => hs.exec_congr h h', fun hs => hs.exec_congr h h'⟩

end Sys2Proof.Machine

/-! ## What each instruction does to the state, and the invariant of a run (10 R22 to R30)

An instruction that answers has one of ten effects, each a composition of the shared operations. The invariant is kept
operation by operation, so by every effect, so by every step. -/

namespace Sys2Proof.Machine

variable {s t : State}

/-- `ExecEffect s i t`: what instruction `i` may make of state `s`, by the shared operation that makes it. The word a
read answers and the byte an accumulator write leaves are left open; `exec_<instruction>` gives them. -/
inductive ExecEffect (s : State) : Instr → State → Prop
  | read {i : Instr} (hi : isRead i = true) (v : Word) : ExecEffect s i (respondRead v s)
  | hold {i : Instr} (hi : stallsWhileBusy i = true) (hb : s.busy = true) : ExecEffect s i (holdTransaction i s)
  | loadAcc {i : Instr} {d : Word} (hi : i = .cksAccWr d ∨ i = .cksIn8 d ∨ i = .cksIn32 d) (v : Byte) :
      ExecEffect s i (respondWrite (setAcc v s))
  | verify (d : Word) :
      ExecEffect s (.cksVfyWr d) (respondWrite (setVerify (vfyMatch s.acc d) (vfyPvalid d) (vfyPval d) s))
  | clear (d : Word) : ExecEffect s (.statusWr d) (respondWrite (clearStatus (clearsDone d) (clearsErr d) s))
  | store (hb : s.busy = false) (w : BitVec 4) (d : Word) :
      ExecEffect s (.bufWr w d) (respondWrite (setBuf (s.buf.writeWord w d) s))
  | accept (hb : s.busy = false) {d : Word} {c : Command} (hc : checkCommand d = .ok c) :
      ExecEffect s (.cmdWr d) (respondWrite (acceptCommand d c s))
  | reject (hb : s.busy = false) {d : Word} {e : CmdReject} (he : checkCommand d = .error e) :
      ExecEffect s (.cmdWr d) (respondWrite (commandError e s))
  | finish {c : Command} (hc : c.inRange = true) :
      ExecEffect s c.toInstr (finishCommand
        (s.buf.writeBlocks c.sblk.toNat (commandMode c (s.buf.readBlocks c.sblk.toNat (blockCount c.nbm1)))) s)
  | outOfRange {c : Command} (hc : c.inRange = false) : ExecEffect s c.toInstr (commandError .range s)

theorem exec_toInstr_effect {c : Command} (h : exec c.toInstr s = .next t) : ExecEffect s c.toInstr t := by
  obtain ⟨hr, rfl⟩ | ⟨hr, rfl⟩ := completeCommand_next (exec_toInstr c s ▸ h)
  · exact .finish hr
  · exact .outOfRange hr

/-- What an instruction that answers a next state did. -/
theorem exec_effect {i : Instr} (h : exec i s = .next t) : ExecEffect s i t := by
  cases i with
  | cmdWr d =>
    obtain ⟨hb, rfl⟩ | ⟨hb, rfl⟩ := whenIdle_next (exec_cmdWr s d ▸ h)
    · exact .hold rfl hb
    · obtain ⟨c, hc, hs⟩ | ⟨e, he, hs⟩ := issueCommand_cases d s <;> rw [hs]
      · exact .accept hb hc
      · exact .reject hb he
  | bufRd w =>
    obtain ⟨hb, rfl⟩ | ⟨-, rfl⟩ := whenIdle_next (exec_bufRd s w ▸ h)
    · exact .hold rfl hb
    · exact .read rfl _
  | bufWr w d =>
    obtain ⟨hb, rfl⟩ | ⟨hb, rfl⟩ := whenIdle_next (exec_bufWr s w d ▸ h)
    · exact .hold rfl hb
    · exact .store hb w d
  | statusWr d => cases h; exact .clear d
  | cksAccWr d => cases h; exact .loadAcc (.inl rfl) _
  | cksIn8 d => cases h; exact .loadAcc (.inr (.inl rfl)) _
  | cksIn32 d => cases h; exact .loadAcc (.inr (.inr rfl)) _
  | cksVfyWr d => cases h; exact .verify d
  | cbcEnc k sb nb => exact exec_toInstr_effect (c := ⟨.enc, k, sb, nb⟩) h
  | cbcDec k sb nb => exact exec_toInstr_effect (c := ⟨.dec, k, sb, nb⟩) h
  | _ => cases h; exact .read rfl _

/-- Settles O54, effect by effect: an operation leaves every field but its own alone. -/
theorem eachRegisterChangesOnlyByItsWriters : Obligations.EachRegisterChangesOnlyByItsWriters := by
  intro i s t h
  cases exec_effect h with
  | read | verify | store | accept | reject | finish => simp
  | hold hi hb => simp [hi, hb]
  | loadAcc hi => simpa using .inr ⟨_, hi⟩
  | clear d => cases clearsDone d <;> cases clearsErr d <;> simp
  | outOfRange hc => simpa using .inr (.inr ⟨_, rfl, hc⟩)

/-! ### The invariant, operation by operation -/

/-- Settles O16. -/
theorem invariantAtReset : Obligations.InvariantAtReset where
  bufCanonical := ⟨.nil, by simp [State.reset]⟩
  busyPending := rfl
  errCode := by simp [State.reset]
  codeLegal := by simp [State.reset]
  cmdLegal := .inl rfl
  pendingIsCmd := by simp [State.reset]
  pvalZero _ := rfl
  matchValid := by simp [State.reset]
  heldStalls := by simp [State.reset]

theorem respondRead_invariant (hs : Invariant s) (v : Word) : Invariant (respondRead v s) := { hs with }

theorem respondWrite_invariant (hs : Invariant s) : Invariant (respondWrite s) := { hs with }

theorem setAcc_invariant (hs : Invariant s) (v : Byte) : Invariant (setAcc v s) := { hs with }

theorem withEvents_invariant (hs : Invariant s) (es : List Event) : Invariant (withEvents es s) := { hs with }

theorem setBuf_invariant (hs : Invariant s) {m : Memory} (hm : m.wf) : Invariant (setBuf m s) :=
  { hs with bufCanonical := hm }

theorem holdTransaction_invariant (hs : Invariant s) {i : Instr} (hi : stallsWhileBusy i = true) :
    Invariant (holdTransaction i s) :=
  { hs with heldStalls := by simpa using hi }

theorem releaseHold_invariant (hs : Invariant s) : Invariant (releaseHold s) :=
  { hs with heldStalls := by simp }

theorem resetDevice_invariant (hs : Invariant s) : Invariant (resetDevice s) :=
  { invariantAtReset with heldStalls := hs.heldStalls }

/-- ERR and ERRCODE are cleared together. -/
theorem clearStatus_invariant (hs : Invariant s) (clrDone clrErr : Bool) :
    Invariant (clearStatus clrDone clrErr s) :=
  { hs with
    errCode := by cases clrErr <;> simp [hs.errCode]
    codeLegal := by cases clrErr <;> simp [hs.codeLegal] }

/-- The first code is kept, and a set ERR has one already. -/
theorem commandError_invariant (hs : Invariant s) (e : CmdReject) : Invariant (commandError e s) := by
  obtain ⟨hle, hne⟩ := rejectCode_legal e
  have hkept : s.err = true → s.errcode ≠ 0x0#4 := fun he h0 => by simp [hs.errCode.mpr h0] at he
  exact { hs with
    errCode := by cases he : s.err <;> simp [he, hne, hkept]
    codeLegal := by cases he : s.err <;> simp [he, hle, hs.codeLegal] }

theorem acceptCommand_invariant (hs : Invariant s) {w : Word} {c : Command} (hc : checkCommand w = .ok c) :
    Invariant (acceptCommand w c s) :=
  { hs with
    busyPending := rfl
    cmdLegal := .inr ⟨c, hc⟩
    pendingIsCmd := by simpa using hc }

theorem finishCommand_invariant (hs : Invariant s) {m : Memory} (hm : m.wf) : Invariant (finishCommand m s) :=
  { hs with
    bufCanonical := hm
    busyPending := rfl
    pendingIsCmd := by simp }

/-- A character that folds to a digit of `acc` is a hex digit, so MATCH needs PVALID (40 R110). -/
theorem vfyPvalid_of_vfyMatch {acc : Byte} {d : Word} (h : vfyMatch acc d = true) : vfyPvalid d = true := by
  simp only [vfyMatch, Bool.and_eq_true, beq_iff_eq, fold_eq_hexchar] at h
  obtain ⟨⟨htwo, hchar0, -⟩, hchar1, -⟩ := h
  simp [vfyPvalid, htwo, hchar0, hchar1]

theorem verify_invariant (hs : Invariant s) (acc : Byte) (d : Word) :
    Invariant (setVerify (vfyMatch acc d) (vfyPvalid d) (vfyPval d) s) :=
  { hs with
    pvalZero := fun h => if_neg (by simpa using h)
    matchValid := vfyPvalid_of_vfyMatch }

/-- An in-range command stores as many blocks as it read, all of them inside BUF. -/
theorem commandResult_wf {m : Memory} (hm : m.wf) {c : Command} (hc : c.inRange = true) :
    (m.writeBlocks c.sblk.toNat (commandMode c (m.readBlocks c.sblk.toNat (blockCount c.nbm1)))).wf :=
  Memory.writeBlocks_wf hm _ _ (by simpa [Command.inRange, blocksInRange] using hc)

/-- The invariant is inductive: each effect keeps every field of it. -/
theorem ExecEffect.invariant {i : Instr} (h : ExecEffect s i t) (hs : Invariant s) : Invariant t := by
  cases h with
  | read _ v => exact respondRead_invariant hs v
  | hold hi => exact holdTransaction_invariant hs hi
  | loadAcc _ v => exact respondWrite_invariant (setAcc_invariant hs v)
  | verify d => exact respondWrite_invariant (verify_invariant hs s.acc d)
  | clear d => exact respondWrite_invariant (clearStatus_invariant hs _ _)
  | store _ w d => exact respondWrite_invariant (setBuf_invariant hs (Memory.writeWord_wf hs.bufCanonical w d))
  | accept _ hc => exact respondWrite_invariant (acceptCommand_invariant hs hc)
  | reject => exact respondWrite_invariant (commandError_invariant hs _)
  | finish hc => exact finishCommand_invariant hs (commandResult_wf hs.bufCanonical hc)
  | outOfRange => exact commandError_invariant hs .range

/-- Every instruction keeps the invariant, with any operand and in every state that meets it. -/
theorem exec_invariant {i : Instr} (hs : Invariant s) (h : exec i s = .next t) : Invariant t :=
  (exec_effect h).invariant hs

/-- Settles O17: each agent's move is an instruction, a reset or the taking of an input. -/
theorem stepKeepsTheInvariant : Obligations.StepKeepsTheInvariant := by
  intro s t hs h
  obtain ⟨_, es, i, -, -, -, hx⟩ | ⟨c, es, -, -, hx⟩ | ⟨i, es, -, -, hx⟩ | ⟨es, -, -, rfl⟩ | ⟨-, -, es, rfl⟩ :=
    step_cases h
  · exact exec_invariant (withEvents_invariant hs es) hx
  · exact exec_invariant (withEvents_invariant hs es) hx
  · exact exec_invariant (releaseHold_invariant (withEvents_invariant hs es)) hx
  · exact resetDevice_invariant (withEvents_invariant hs es)
  · exact withEvents_invariant hs es

/-! ### The idle step -/

/-- Settles O12: with nothing held and no command the next input moves, and neither no input nor an engine turn is a
move of the CCE. -/
theorem idleStepChangesNothing : Obligations.IdleStepChangesNothing := by
  intro s hh hb
  have hfree : step s = freeStep s := by simp [step, machineStep, hh]
  refine ⟨fun he => ?_, fun es he => ?_⟩
  · simp [hfree, freeStep, he, hb]
  · simp [hfree, freeStep, he, hb, withEvents]

end Sys2Proof.Machine

/-! ## Encodings and addresses back from what they stand for (20 R61, R62; 30 R85, R86) -/

namespace Sys2Proof

/-! ### Bus selectors -/

/-- The data of a selector's transaction as an encoding keeps it: a read has none (20 R61). -/
def keptData (sel : BitVec 9) (wdata : Word) : Word := if sel.extractLsb 8 8 = 1#1 then wdata else 0#32

theorem keptData_read {sel : BitVec 9} (h : sel.extractLsb 8 8 = 0#1) (wdata : Word) : keptData sel wdata = 0#32 := by
  simp [keptData, h]

theorem keptData_write {sel : BitVec 9} (h : sel.extractLsb 8 8 = 1#1) (wdata : Word) : keptData sel wdata = wdata := by
  simp [keptData, h]

/-- What a row makes of a selector that it matches encodes as that selector. -/
def BusRow.EncodesBack (r : BusRow) : Prop :=
  ∀ sel wdata, r.matchesSel sel = true → encode (r.make sel wdata) = .bus sel (keptData sel wdata)

/-- A row without operand bits matches its pattern alone, so one selector is to be encoded back. -/
theorem encodesBack_of_fixed {p : BitVec 9} {make : BitVec 9 → Word → Instr}
    (hp : ∀ wdata, encode (make p wdata) = .bus p (keptData p wdata)) : BusRow.EncodesBack ⟨p, 0x1FF#9, make⟩ := by
  intro sel wdata h
  have hall : sel &&& BitVec.allOnes 9 = p := by simpa [BusRow.matchesSel] using h
  obtain rfl : sel = p := by rwa [BitVec.and_allOnes] at hall
  exact hp wdata

theorem controlRows_encodesBack : ∀ r ∈ controlRows, r.EncodesBack := by
  simp only [controlRows, List.forall_mem_cons]
  refine ⟨?_, ?_, ?_, ?_, by simp⟩ <;> exact encodesBack_of_fixed fun _ => rfl

theorem checksumRows_encodesBack : ∀ r ∈ checksumRows, r.EncodesBack := by
  simp only [checksumRows, List.forall_mem_cons]
  refine ⟨?_, ?_, ?_, ?_, ?_, ?_, ?_, by simp⟩ <;> exact encodesBack_of_fixed fun _ => rfl

/-- A BUF selector is its row's fixed bits around the word index (30 R81). -/
theorem bufSelector_split : ∀ sel : BitVec 9,
    (sel &&& 0x1C3#9 = 0x040#9 → 0b001#3 ++ bufIndex sel ++ 0b00#2 = sel ∧ sel.extractLsb 8 8 = 0#1)
      ∧ (sel &&& 0x1C3#9 = 0x140#9 → 0b101#3 ++ bufIndex sel ++ 0b00#2 = sel ∧ sel.extractLsb 8 8 = 1#1) := by
  decide +kernel

/-- A selector of a constant window is its row's fixed bits around the word index (30 R81). -/
theorem constSelector_split : ∀ sel : BitVec 9,
    (sel &&& 0x1F3#9 = 0x080#9 → 0b01000#5 ++ constIndex sel ++ 0b00#2 = sel ∧ sel.extractLsb 8 8 = 0#1)
      ∧ (sel &&& 0x1F3#9 = 0x090#9 → 0b01001#5 ++ constIndex sel ++ 0b00#2 = sel ∧ sel.extractLsb 8 8 = 0#1)
      ∧ (sel &&& 0x1F3#9 = 0x0A0#9 → 0b01010#5 ++ constIndex sel ++ 0b00#2 = sel ∧ sel.extractLsb 8 8 = 0#1) := by
  decide +kernel

theorem windowRows_encodesBack : ∀ r ∈ windowRows, r.EncodesBack := by
  simp only [windowRows, List.forall_mem_cons, BusRow.EncodesBack, BusRow.matchesSel, beq_iff_eq, encode]
  refine ⟨?_, ?_, ?_, ?_, ?_, by simp⟩ <;> intro sel wdata h
  · obtain ⟨hsel, hdir⟩ := (bufSelector_split sel).1 h
    rw [hsel, keptData_read hdir]
  · obtain ⟨hsel, hdir⟩ := (bufSelector_split sel).2 h
    rw [hsel, keptData_write hdir]
  · obtain ⟨hsel, hdir⟩ := (constSelector_split sel).1 h
    rw [hsel, keptData_read hdir]
  · obtain ⟨hsel, hdir⟩ := (constSelector_split sel).2.1 h
    rw [hsel, keptData_read hdir]
  · obtain ⟨hsel, hdir⟩ := (constSelector_split sel).2.2 h
    rw [hsel, keptData_read hdir]

theorem busRows_encodesBack : ∀ r ∈ busRows, r.EncodesBack := by
  simp only [busRows, List.mem_append]
  rintro r ((hr | hr) | hr)
  · exact controlRows_encodesBack r hr
  · exact checksumRows_encodesBack r hr
  · exact windowRows_encodesBack r hr

/-- A selector that decodes matches a row of the map, which made the instruction. -/
theorem decodeSelector_ok {sel : BitVec 9} {wdata : Word} {i : Instr} (h : decodeSelector sel wdata = .ok i) :
    ∃ r ∈ busRows, r.matchesSel sel = true ∧ i = r.make sel wdata := by
  unfold decodeSelector at h
  split_ifs at h
  split at h
  · next r hr =>
    cases h
    have hmatch := List.find?_some hr
    exact ⟨r, List.mem_of_find?_eq_some hr, hmatch, rfl⟩
  · cases h

theorem encode_of_decodeSelector {sel : BitVec 9} {wdata : Word} {i : Instr} (h : decodeSelector sel wdata = .ok i) :
    encode i = .bus sel (keptData sel wdata) := by
  obtain ⟨r, hr, hmatch, rfl⟩ := decodeSelector_ok h
  exact busRows_encodesBack r hr sel wdata hmatch

/-! ### CMD words -/

theorem kselBit_of_bit (b : BitVec 1) : kselBit (if b = 1#1 then .d2h else .h2d) = b := by
  obtain rfl | rfl : b = 0#1 ∨ b = 1#1 := by revert b; decide
  · rfl
  · rfl

/-- Any word is its bit ranges of 10 R23 one beside the other. -/
theorem cmdWord_ranges (w : Word) :
    w.extractLsb' 14 18 ++ w.extractLsb' 12 2 ++ w.extractLsb' 10 2 ++ w.extractLsb' 8 2 ++ w.extractLsb' 5 3
      ++ w.extractLsb' 4 1 ++ w.extractLsb' 2 2 ++ w.extractLsb' 0 2 = w := by
  iterate 7 rw [BitVec.extractLsb'_append_extractLsb'_eq_extractLsb' (by decide)]
  exact BitVec.extractLsb'_eq_self

/-- A range that a mask covers is zero where the masked word is. -/
theorem extractLsb'_eq_zero_of_and {w m : Word} (h : w &&& m = 0#32) {lo len : Nat}
    (hm : m.extractLsb' lo len = BitVec.allOnes len) : w.extractLsb' lo len = 0#len := by
  have hrange : w.extractLsb' lo len &&& m.extractLsb' lo len = 0#len := by simp [← BitVec.extractLsb'_and, h]
  rwa [hm, BitVec.and_allOnes] at hrange

/-- With its reserved bits zero a CMD word is the word of the fields read from it. -/
theorem commandFields_word {w : Word} {op : CbcOp} (hres : w &&& cmdReservedMask = 0#32)
    (hop : w.extractLsb' 0 2 = opBits op) : (commandFields op w).word = w := by
  have h14 : w.extractLsb' 14 18 = 0#18 := extractLsb'_eq_zero_of_and hres (by decide)
  have h10 : w.extractLsb' 10 2 = 0#2 := extractLsb'_eq_zero_of_and hres (by decide)
  have h5 : w.extractLsb' 5 3 = 0#3 := extractLsb'_eq_zero_of_and hres (by decide)
  have h2 : w.extractLsb' 2 2 = 0#2 := extractLsb'_eq_zero_of_and hres (by decide)
  have hw := cmdWord_ranges w
  rw [h14, h10, h5, h2, hop] at hw
  rwa [Command.word, commandFields, cmdWord, kselBit_of_bit]

/-- A CMD word that decodes is the word of its command. -/
theorem word_of_decodeCommand {w : Word} {c : Command} (h : decodeCommand w = .ok c) : c.word = w := by
  obtain ⟨hres, ⟨hop, rfl⟩ | ⟨hop, rfl⟩⟩ := decodeCommand_ok h
  · exact commandFields_word hres hop
  · exact commandFields_word hres hop

theorem encode_toInstr (c : Command) : encode c.toInstr = .cmd c.word := by
  obtain ⟨op, ksel, sblk, nbm1⟩ := c
  cases op <;> rfl

/-- Settles O3, format by format. -/
theorem encodeOfDecodedIsTheWord : Obligations.EncodeOfDecodedIsTheWord := by
  refine ⟨fun sel wdata i h => ?_, fun w i h => ?_⟩
  · cases hd : decodeSelector sel wdata with
    | error c => simp [decode, hd] at h
    | ok j =>
      obtain rfl : j = i := by simpa [decode, hd] using h
      exact encode_of_decodeSelector hd
  · cases hd : decodeCommand w with
    | error c => simp [decode, hd] at h
    | ok c =>
      obtain rfl : c.toInstr = i := by simpa [decode, hd] using h
      rw [encode_toInstr, word_of_decodeCommand hd]

/-! ### The window -/

theorem base_toNat : Config.base.toNat = 256 * Config.basePage.toNat := by
  rw [Config.base, BitVec.toNat_append, BitVec.toNat_ofNat, Nat.zero_mod, Nat.or_zero, Nat.shiftLeft_eq, Nat.mul_comm]

/-- An address lies in the window exactly when it has the page of `BASE`. -/
theorem page_eq_iff (a : BitVec 32) : a.extractLsb' 8 24 = Config.basePage ↔
    Config.base.toNat ≤ a.toNat ∧ a.toNat < Config.base.toNat + 256 := by
  have hpage : (a.extractLsb' 8 24).toNat = a.toNat / 256 := by
    simp only [BitVec.extractLsb'_toNat, Nat.shiftRight_eq_div_pow]
    omega
  rw [BitVec.toNat_eq, hpage, base_toNat]
  omega

/-- Settles O7. -/
theorem windowOffsetIsAddressMinusBase : Obligations.WindowOffsetIsAddressMinusBase := by
  refine ⟨by rw [base_toNat]; omega, fun a => ⟨fun hin => ?_, fun hout => ?_⟩⟩
  · refine ⟨a.extractLsb' 0 8, by rw [windowOffset, if_pos ((page_eq_iff a).mpr hin)], ?_⟩
    rw [base_toNat] at hin ⊢
    simp only [BitVec.extractLsb'_toNat, Nat.shiftRight_zero]
    omega
  · rw [windowOffset, if_neg fun hpage => hout ((page_eq_iff a).mp hpage)]

end Sys2Proof

/-! ## BUF words and reads (20 R63, R67; 42 R186, R187) -/

namespace Sys2Proof.Machine

variable {s s' t t' u : State} {i : Instr}

/-! ### Read after write -/

theorem wordOfBytes_byteLane (v : Word) :
    wordOfBytes (byteLane v 0) (byteLane v 1) (byteLane v 2) (byteLane v 3) = v := by
  simp only [wordOfBytes, byteLane]
  iterate 3 rw [BitVec.extractLsb'_append_extractLsb'_eq_extractLsb' (by decide)]
  exact BitVec.extractLsb'_eq_self

theorem Memory.readWord_writeWord_same (m : Memory) (w : BitVec 4) (v : Word) :
    Memory.readWord (Memory.writeWord m w v) w = v := by
  simp [Memory.readWord, bufByteIndex, Memory.read_writeWord, wordOfBytes_byteLane]

/-- The bytes of two words do not overlap. -/
theorem Memory.readWord_writeWord_ne (m : Memory) {w w' : BitVec 4} (h : w' ≠ w) (v : Word) :
    Memory.readWord (Memory.writeWord m w v) w' = Memory.readWord m w' := by
  have hne : w'.toNat ≠ w.toNat := fun he => h (BitVec.eq_of_toNat_eq he)
  have hbyte : ∀ j, 4 * w'.toNat ≤ j → j < 4 * w'.toNat + 4 →
      Memory.read (Memory.writeWord m w v) j = Memory.read m j := fun j hlo hhi => by
    rw [Memory.read_writeWord, if_neg (by omega)]
  simp (disch := omega) only [Memory.readWord, bufByteIndex, hbyte]

theorem exec_bufRd_idle (hb : s.busy = false) (w : BitVec 4) :
    exec (.bufRd w) s = .next (respondRead (s.buf.readWord w) s) := by
  rw [exec_bufRd, whenIdle_idle _ _ _ hb]

theorem exec_bufWr_idle (hb : s.busy = false) (w : BitVec 4) (d : Word) :
    exec (.bufWr w d) s = .next (respondWrite (setBuf (s.buf.writeWord w d) s)) := by
  rw [exec_bufWr, whenIdle_idle _ _ _ hb]

/-- A BUF read just after `m` was stored answers from `m`. -/
theorem exec_bufRd_stored (hb : s.busy = false) (m : Memory) (w : BitVec 4) :
    exec (.bufRd w) (respondWrite (setBuf m s)) =
      .next (respondRead (m.readWord w) (respondWrite (setBuf m s))) :=
  exec_bufRd_idle (s := respondWrite (setBuf m s)) hb w

theorem respondRead_injective {v v' : Word} (h : respondRead v s = respondRead v' s) : v = v' := by
  simpa using congrArg State.resp h

/-- Settles O51. -/
theorem bufWordReadsBackWhatWasWritten : Obligations.BufWordReadsBackWhatWasWritten := by
  intro s t w w' d hb h
  obtain rfl : respondWrite (setBuf (s.buf.writeWord w d) s) = t := by
    simpa only [exec_bufWr_idle hb, Host.Outcome.next.injEq] using h
  refine ⟨?_, fun hne v hv => ?_⟩
  · rw [exec_bufRd_stored hb, Memory.readWord_writeWord_same]
    rfl
  · have hold : s.buf.readWord w' = v :=
      respondRead_injective (Host.Outcome.next.inj ((exec_bufRd_idle hb w').symm.trans hv))
    rw [exec_bufRd_stored hb, Memory.readWord_writeWord_ne _ hne, hold]
    rfl

/-! ### Reads -/

theorem sameDevice_iff : SameDevice s t ↔ SameChecksumUnit s t ∧ SameCbcUnit s t := Iff.rfl

theorem SameDevice.trans (h : SameDevice s t) (h' : SameDevice t u) : SameDevice s u := by
  simp_all [sameDevice_iff, SameChecksumUnit, sameCbcUnit_iff]

theorem isRead_writes_neither (hi : isRead i = true) : writesChecksumUnit i = false ∧ writesCbcUnit i = false := by
  cases i <;> simp_all [isRead, writesChecksumUnit, writesCbcUnit]

/-- A read writes no field of the record (20 R67). -/
theorem exec_read_sameDevice (hi : isRead i = true) (h : exec i s = .next t) : SameDevice s t :=
  ⟨exec_sameChecksumUnit (isRead_writes_neither hi).1 h, exec_sameCbcUnit (isRead_writes_neither hi).2 h⟩

/-- No instruction takes an input. -/
theorem exec_events (h : exec i s = .next t) : t.events = s.events := by
  cases exec_effect h <;> simp

/-- What a read answers depends on the record alone, and so does whether it is held. -/
theorem exec_read_resp_congr (hi : isRead i = true) (hs : SameDevice s s') (h : exec i s = .next t)
    (h' : exec i s' = .next t') : t'.resp = t.resp := by
  obtain ⟨⟨hacc, hvm, hpv, hpb⟩, ⟨hbusy, hdone, herr, hcode⟩, ⟨hcmd, -⟩, hbuf⟩ := hs
  cases i with
  | bufRd w =>
    cases hb : s.busy with
    | true =>
      rw [exec_bufRd, whenIdle_busy _ _ _ hb] at h
      rw [exec_bufRd, whenIdle_busy _ _ _ (hbusy.trans hb)] at h'
      cases h; cases h'; rfl
    | false =>
      rw [exec_bufRd_idle hb] at h
      rw [exec_bufRd_idle (hbusy.trans hb)] at h'
      cases h; cases h'; simp [hbuf]
  | cmdRd => cases h; cases h'; simp [hcmd]
  | statusRd => cases h; cases h'; simp [statusWord, hbusy, hdone, herr, hcode]
  | cksAccRd | cksHexRd => cases h; cases h'; simp [hacc]
  | cksVfyRd => cases h; cases h'; simp [vfyWord, hvm, hpv, hpb]
  | refRd _ | auth1rHdrRd _ | auth2HdrRd _ => cases h; cases h'; rfl
  | _ => cases hi

theorem execAll_reads (is : List Instr) (s : State) (his : ∀ r ∈ is, isRead r = true) :
    ∃ t, execAll is s = .next t ∧ SameDevice s t ∧ t.events = s.events := by
  induction is generalizing s with
  | nil => exact ⟨s, rfl, by simp [sameDevice_iff, SameChecksumUnit, sameCbcUnit_iff], rfl⟩
  | cons r rs ih =>
    obtain ⟨hr, hrs⟩ := List.forall_mem_cons.mp his
    obtain ⟨t, ht⟩ := exec_answers_next r s
    obtain ⟨u, hu, hdev, hev⟩ := ih t hrs
    refine ⟨u, ?_, (exec_read_sameDevice hr ht).trans hdev, hev.trans (exec_events ht)⟩
    simpa only [execAll, ht] using hu

/-- Settles O53: no read changes the record, on which alone the repeated read's answer depends. -/
theorem readsHaveNoSideEffects : Obligations.ReadsHaveNoSideEffects := by
  intro i is s hi his
  obtain ⟨t, ht⟩ := exec_answers_next i s
  obtain ⟨u, hu, htu, heu⟩ := execAll_reads is t his
  obtain ⟨v, hv⟩ := exec_answers_next i u
  have hst := exec_read_sameDevice hi ht
  have hsu := hst.trans htu
  have hsv := hsu.trans (exec_read_sameDevice hi hv)
  have het := exec_events ht
  exact ⟨t, u, v, ht, hu, hv, hst, hsu, hsv, het, heu.trans het, (exec_events hv).trans (heu.trans het),
    exec_read_resp_congr hi hsu ht hv⟩

end Sys2Proof.Machine

/-! ## The order of the agents' moves (20 R60, R66, R68; 41 R150; 70 R240, R242, R255)

One rule for each way a step's agent is chosen; what a step runs then follows by rewriting. -/

namespace Sys2Proof.Machine

variable {s : State} {i : Instr} {c : Command} {t : Txn} {es : List Event}

theorem step_free (hh : s.held = none) : step s = freeStep s := by
  simp only [step, machineStep, hh]

theorem step_held (hh : s.held = some i) : step s = heldStep i s := by
  simp only [step, machineStep, hh]

theorem hostMove_decoded (hd : decodeTxn t = .ok i) (s : State) : hostMove t s = exec i s := by
  simp only [hostMove, hd]

theorem engineMove_pending (hp : s.pending = some c) : engineMove s = exec c.toInstr s := by
  simp only [engineMove, hp]

theorem heldMove_busy (hb : s.busy = true) (i : Instr) : heldMove i s = engineMove s := by
  simp only [heldMove, hb, ↓reduceIte]

theorem heldMove_idle (hb : s.busy = false) (i : Instr) : heldMove i s = exec i (releaseHold s) := by
  simp only [heldMove, hb, Bool.false_eq_true, ↓reduceIte]

/-! ### A step while a transaction is held -/

theorem step_held_noInput (hh : s.held = some i) (he : s.events = []) : step s = heldMove i s := by
  simp only [step_held hh, heldStep, he]

theorem step_held_host (hh : s.held = some i) (he : s.events = .host t :: es) : step s = heldMove i s := by
  simp only [step_held hh, heldStep, he]

theorem step_held_engine (hh : s.held = some i) (he : s.events = .engine :: es) :
    step s = heldMove i (withEvents es s) := by
  simp only [step_held hh, heldStep, he]

/-- A reset is refused while a transaction is held (70 R242). -/
theorem step_held_reset (hh : s.held = some i) (he : s.events = .reset :: es) :
    step s = .refused .resetWhileOutstanding := by
  simp only [step_held hh, heldStep, he, resetMove, withEvents_held, hh]

/-! ### The engine's turn, whether a transaction is held or not -/

theorem step_busy_engine (hb : s.busy = true) (he : s.events = .engine :: es) :
    step s = engineMove (withEvents es s) := by
  cases hh : s.held with
  | none => simp only [step_free hh, freeStep, he, hb, ↓reduceIte]
  | some i => exact (step_held_engine hh he).trans (heldMove_busy (s := withEvents es s) hb i)

theorem step_busy_noInput (hb : s.busy = true) (he : s.events = []) : step s = engineMove s := by
  cases hh : s.held with
  | none => simp only [step_free hh, freeStep, he, hb, ↓reduceIte]
  | some i => rw [step_held_noInput hh he, heldMove_busy hb]

/-! ### What a step runs -/

/-- Settles O8. -/
theorem stepRunsTheDecodedTransaction : Obligations.StepRunsTheDecodedTransaction := by
  intro s t es i hh he hd
  calc step s = hostMove t (withEvents es s) := by simp only [step_free hh, freeStep, he]
    _ = exec i (withEvents es s) := hostMove_decoded hd _

/-- Settles O9. -/
theorem stepRunsThePendingCommand : Obligations.StepRunsThePendingCommand := by
  intro s c hb hp
  refine ⟨fun es he => ?_, fun he => ?_, fun i t es hh he => ?_⟩
  · exact (step_busy_engine hb he).trans (engineMove_pending (s := withEvents es s) hp)
  · rw [step_busy_noInput hb he, engineMove_pending hp]
  · rw [step_held_host hh he, heldMove_busy hb, engineMove_pending hp]

/-- Settles O10. -/
theorem stepPerformsTheHeldTransaction : Obligations.StepPerformsTheHeldTransaction := by
  intro s i hh hb
  refine ⟨fun he => ?_, fun t es he => ?_, fun es he => ?_, fun es he => step_held_reset hh he⟩
  · exact (step_held_noInput hh he).trans (heldMove_idle hb i)
  · exact (step_held_host hh he).trans (heldMove_idle hb i)
  · exact (step_held_engine hh he).trans (heldMove_idle (s := withEvents es s) hb i)

/-! ### Three steps around a held CMD write -/

/-- With only host transactions to come and one held, a running command has the engine's turn. -/
theorem step_held_completes {ts : List Txn} (hh : s.held = some i) (hb : s.busy = true) (hp : s.pending = some c)
    (he : s.events = ts.map .host) : step s = exec c.toInstr s := by
  obtain ⟨-, hnone, hhost⟩ := stepRunsThePendingCommand s c hb hp
  cases ts with
  | nil => exact hnone he
  | cons t ts => exact hhost i t (ts.map .host) hh he

/-- With only host transactions to come, the held one is performed once nothing runs. -/
theorem step_held_performs {ts : List Txn} (hh : s.held = some i) (hb : s.busy = false)
    (he : s.events = ts.map .host) : step s = exec i (releaseHold s) := by
  obtain ⟨hnone, hhost, -⟩ := stepPerformsTheHeldTransaction s i hh hb
  cases ts with
  | nil => exact hnone he
  | cons t ts => exact hhost t (ts.map .host) he

theorem run_one (s : State) : core.run 1 s = step s := by
  cases h : step s with
  | next t => exact run_of_step 0 h
  | fault f => exact run_of_fault 0 h
  | refused r => exact run_of_refused 0 h

/-- A held transaction is performed on the state that the running command's completion left (20 R68). -/
theorem run_held_busy {ts : List Txn} (hh : s.held = some i) (hb : s.busy = true) (hp : s.pending = some c)
    (hr : c.inRange = true) (he : s.events = ts.map .host) :
    ∃ u, exec c.toInstr s = .next u ∧ u.busy = false ∧ core.run 2 s = exec i (releaseHold u) := by
  have hfinish := exec_toInstr_inRange s hr
  refine ⟨_, hfinish, finishCommand_busy _ _, ?_⟩
  rw [run_of_step 1 ((step_held_completes hh hb hp he).trans hfinish), run_one]
  exact step_held_performs hh rfl he

theorem decodeTxn_cmdWr (w : Word) : decodeTxn ⟨.write, 0x00#8, 4, w⟩ = .ok (.cmdWr w) := by
  rw [decodeTxn_word]
  rfl

theorem exec_cmdWr_busy (hb : s.busy = true) (w : Word) :
    exec (.cmdWr w) s = .next (holdTransaction (.cmdWr w) s) := by
  rw [exec_cmdWr, whenIdle_busy _ _ _ hb]

/-- Settles O21: the write is held, the command completes, the write is performed. -/
theorem commandsAreSerialised : Obligations.CommandsAreSerialised := by
  intro s c w ts hb hp hr hh he
  have hheld : step s = .next (holdTransaction (.cmdWr w) (withEvents (ts.map .host) s)) :=
    (stepRunsTheDecodedTransaction s _ _ _ hh he (decodeTxn_cmdWr w)).trans
      (exec_cmdWr_busy (s := withEvents (ts.map .host) s) hb w)
  obtain ⟨u, hu, hub, hrun⟩ := run_held_busy (s := holdTransaction (.cmdWr w) (withEvents (ts.map .host) s))
    rfl hb hp hr rfl
  exact ⟨u, hu, hub, (run_of_step 2 hheld).trans hrun⟩

end Sys2Proof.Machine

/-! ## The words of the opcode maps decode to what they stand for (30 R80 to R87) -/

namespace Sys2Proof

/-! ### Rows of the bus map -/

/-- Two rows ask for different bits where both masks look, so no selector matches both. -/
def BusRow.Apart (r r' : BusRow) : Prop := r.pattern &&& r'.mask ≠ r'.pattern &&& r.mask

theorem BusRow.Apart.not_both {r r' : BusRow} (h : r.Apart r') {sel : BitVec 9} (hr : r.matchesSel sel = true) :
    r'.matchesSel sel = false := by
  rw [BusRow.matchesSel, beq_iff_eq] at hr
  refine beq_false_of_ne fun hr' => h ?_
  rw [← hr, ← hr', BitVec.and_assoc, BitVec.and_comm r.mask, BitVec.and_assoc]

theorem busRows_pairwise_apart : busRows.Pairwise BusRow.Apart := by
  unfold BusRow.Apart
  decide

/-- A selector matches at most one row of the map. -/
theorem busRows_match_unique {sel : BitVec 9} {r r' : BusRow} (hr : r ∈ busRows) (hr' : r' ∈ busRows)
    (h : r.matchesSel sel = true) (h' : r'.matchesSel sel = true) : r = r' := by
  by_contra hne
  have hsymm : Std.Symm BusRow.Apart := ⟨fun _ _ => Ne.symm⟩
  have hapart : r.Apart r' := busRows_pairwise_apart.forall hr hr' hne
  rw [hapart.not_both h] at h'
  cases h'

/-- The checks that come before the map pass: the offset is word-aligned and not reserved (30 R84). -/
def SelectorLegal (sel : BitVec 9) : Prop := sel.extractLsb' 0 2 = 0#2 ∧ isReserved (sel.extractLsb' 0 8) = false

/-- A row of the map decodes the legal selectors that it matches: no other row takes them. -/
theorem decodeSelector_of_match {r : BusRow} (hr : r ∈ busRows) {sel : BitVec 9} (hlegal : SelectorLegal sel)
    (h : r.matchesSel sel = true) (wdata : Word) : decodeSelector sel wdata = .ok (r.make sel wdata) := by
  obtain ⟨halign, hres⟩ := hlegal
  have hfind : busRows.find? (fun r => r.matchesSel sel) = some r := by
    cases hf : busRows.find? (fun r => r.matchesSel sel) with
    | none => exact absurd h (List.find?_eq_none.mp hf r hr)
    | some r' =>
      have hmatch := List.find?_some hf
      rw [busRows_match_unique (List.mem_of_find?_eq_some hf) hr hmatch h]
  simp [decodeSelector, halign, hres, hfind]

/-! ### Selectors with a word index (30 R81) -/

theorem bufSelector_operand (w : BitVec 4) :
    (SelectorLegal (0b001#3 ++ w ++ 0b00#2) ∧ bufIndex (0b001#3 ++ w ++ 0b00#2) = w)
      ∧ (SelectorLegal (0b101#3 ++ w ++ 0b00#2) ∧ bufIndex (0b101#3 ++ w ++ 0b00#2) = w) := by
  unfold SelectorLegal
  revert w
  decide

theorem constSelector_operand (w : BitVec 2) :
    (SelectorLegal (0b01000#5 ++ w ++ 0b00#2) ∧ constIndex (0b01000#5 ++ w ++ 0b00#2) = w)
      ∧ (SelectorLegal (0b01001#5 ++ w ++ 0b00#2) ∧ constIndex (0b01001#5 ++ w ++ 0b00#2) = w)
      ∧ (SelectorLegal (0b01010#5 ++ w ++ 0b00#2) ∧ constIndex (0b01010#5 ++ w ++ 0b00#2) = w) := by
  unfold SelectorLegal
  revert w
  decide

/-- A legal selector that window row `j` matches decodes to what the row makes of it. -/
theorem decode_windowRow (j : Fin windowRows.length) {sel : BitVec 9} {wdata : Word} {i : Instr}
    (hlegal : SelectorLegal sel) (hmatch : sel &&& windowRows[j].mask = windowRows[j].pattern)
    (hmake : windowRows[j].make sel wdata = i) : decode (.bus sel wdata) = .ok i := by
  have hrow : windowRows[j] ∈ busRows := List.mem_append_right _ (List.getElem_mem _)
  simp only [decode, decodeSelector_of_match hrow hlegal (beq_iff_eq.mpr hmatch), hmake]

/-! ### CMD words -/

theorem decodeCommand_cmdWord (op : CbcOp) (k : KeySel) :
    ∀ sb nb : BitVec 2, decodeCommand (cmdWord op k sb nb) = .ok ⟨op, k, sb, nb⟩ := by
  cases op <;> cases k <;> decide

/-- The only word that decodes to a command is the command's own (30 R86). -/
theorem decodeCommand_ok_iff {w : Word} {c : Command} : decodeCommand w = .ok c ↔ c.word = w :=
  ⟨word_of_decodeCommand, fun h => h ▸ decodeCommand_cmdWord c.op c.ksel c.sblk c.nbm1⟩

theorem toInstr_injective {c c' : Command} (h : c.toInstr = c'.toInstr) : c = c' := by
  have hword : c.word = c'.word := by simpa [encode_toInstr] using congrArg encode h
  exact Except.ok.inj ((decodeCommand_ok_iff.mpr hword).symm.trans (decodeCommand_ok_iff.mpr rfl))

theorem decode_cmd_toInstr_iff {w : Word} {c : Command} :
    decode (.cmd w) = .ok c.toInstr ↔ decodeCommand w = .ok c := by
  cases hd : decodeCommand w with
  | error e => simp [decode, hd]
  | ok c' =>
    simp only [decode, hd, Except.ok.injEq]
    exact ⟨toInstr_injective, congrArg Command.toInstr⟩

/-! ### Both formats -/

/-- Settles O2: a bus instruction's selector matches the row that makes it, and a command's word has its fields. -/
theorem decodeOfEncodeIsTheInstruction : Obligations.DecodeOfEncodeIsTheInstruction := by
  intro i
  cases i with
  | cmdRd | cmdWr | statusRd | statusWr => rfl
  | cksAccRd | cksAccWr | cksIn8 | cksIn32 | cksHexRd | cksVfyWr | cksVfyRd => rfl
  | bufRd w =>
    obtain ⟨⟨hlegal, hindex⟩, -⟩ := bufSelector_operand w
    exact decode_windowRow ⟨0, by decide⟩ hlegal (Laws.EncodingMatchesRow.bufRd w) (congrArg Instr.bufRd hindex)
  | bufWr w wdata =>
    obtain ⟨-, hlegal, hindex⟩ := bufSelector_operand w
    exact decode_windowRow ⟨1, by decide⟩ hlegal (Laws.EncodingMatchesRow.bufWr w wdata)
      (congrArg (Instr.bufWr · wdata) hindex)
  | refRd w =>
    obtain ⟨⟨hlegal, hindex⟩, -, -⟩ := constSelector_operand w
    exact decode_windowRow ⟨2, by decide⟩ hlegal (Laws.EncodingMatchesRow.refRd w) (congrArg Instr.refRd hindex)
  | auth1rHdrRd w =>
    obtain ⟨-, ⟨hlegal, hindex⟩, -⟩ := constSelector_operand w
    exact decode_windowRow ⟨3, by decide⟩ hlegal (Laws.EncodingMatchesRow.auth1rHdrRd w)
      (congrArg Instr.auth1rHdrRd hindex)
  | auth2HdrRd w =>
    obtain ⟨-, -, hlegal, hindex⟩ := constSelector_operand w
    exact decode_windowRow ⟨4, by decide⟩ hlegal (Laws.EncodingMatchesRow.auth2HdrRd w)
      (congrArg Instr.auth2HdrRd hindex)
  | cbcEnc k sb nb => exact decode_cmd_toInstr_iff.mpr (decodeCommand_cmdWord .enc k sb nb)
  | cbcDec k sb nb => exact decode_cmd_toInstr_iff.mpr (decodeCommand_cmdWord .dec k sb nb)

/-- Settles O1: each word written out is the encoding of the instruction it stands for. -/
theorem writtenOutWordsDecode : Obligations.WrittenOutWordsDecode :=
  ⟨decodeOfEncodeIsTheInstruction .statusRd,
    decodeOfEncodeIsTheInstruction (.cmdWr 0x00002112#32),
    decodeOfEncodeIsTheInstruction (.cksVfyWr 0x00023834#32),
    decodeOfEncodeIsTheInstruction (.bufWr 1#4 0x88776655#32),
    decodeOfEncodeIsTheInstruction (.auth1rHdrRd 3#2),
    decodeOfEncodeIsTheInstruction (.cbcEnc .d2h 0#2 3#2),
    decodeOfEncodeIsTheInstruction (.cbcDec .d2h 1#2 2#2)⟩

/-! ### The rows of the command map -/

/-- Fields laid side by side are fields shifted to their places. -/
theorem cmdWord_toNat (op : CbcOp) (k : KeySel) (sb nb : BitVec 2) : (cmdWord op k sb nb).toNat =
    (nb.toNat <<< 12) ||| (sb.toNat <<< 8) ||| ((kselBit k).toNat <<< 4) ||| (opBits op).toNat := by
  unfold cmdWord
  iterate 7 rw [BitVec.toNat_append]
  simp [Nat.shiftLeft_or_distrib, ← Nat.shiftLeft_add]

/-- Settles O4. -/
theorem commandWordIsTheEncodingFunction : Obligations.CommandWordIsTheEncodingFunction := by
  intro op ksel sblk nbm1
  rw [cmdWord_toNat]
  cases op <;> cases ksel <;> rfl

/-- A row's mask covers the reserved bits and OP: its match there is all that decoding asks (30 R86). -/
theorem mask_eq_op_iff_decodes {w : Word} {op : CbcOp} : w &&& 0xFFFFCCEF#32 = (opBits op).setWidth 32 ↔
    ∃ k sb nb, decodeCommand w = .ok ⟨op, k, sb, nb⟩ := by
  constructor
  · intro h
    have hres : w &&& cmdReservedMask = 0#32 := by
      calc w &&& cmdReservedMask = w &&& 0xFFFFCCEF#32 &&& cmdReservedMask := by rw [BitVec.and_assoc]; rfl
        _ = (opBits op).setWidth 32 &&& cmdReservedMask := by rw [h]
        _ = 0#32 := by cases op <;> rfl
    have hop : w.extractLsb' 0 2 = opBits op := by
      calc w.extractLsb' 0 2 = (w &&& 0xFFFFCCEF#32).extractLsb' 0 2 := by
            rw [BitVec.extractLsb'_and]; exact (BitVec.and_allOnes).symm
        _ = ((opBits op).setWidth 32).extractLsb' 0 2 := by rw [h]
        _ = opBits op := by cases op <;> rfl
    exact ⟨_, _, _, decodeCommand_ok_iff.mpr (commandFields_word hres hop)⟩
  · rintro ⟨k, sb, nb, h⟩
    rw [← word_of_decodeCommand h]
    exact Laws.EncodingMatchesRow.cmdWord_matches op k sb nb

/-- A decoded command has the word's fields (30 R83). -/
theorem decodeCommand_fields {w : Word} {c : Command} (h : decodeCommand w = .ok c) :
    (c.ksel = .d2h ↔ w.extractLsb 4 4 = 1#1) ∧ c.sblk = w.extractLsb 9 8 ∧ c.nbm1 = w.extractLsb 13 12 := by
  have hksel : (if w.extractLsb' 4 1 = 1#1 then KeySel.d2h else .h2d) = .d2h ↔ w.extractLsb 4 4 = 1#1 := by
    simp [BitVec.extractLsb]
  obtain ⟨-, ⟨-, rfl⟩ | ⟨-, rfl⟩⟩ := decodeCommand_ok h
  · exact ⟨hksel, rfl, rfl⟩
  · exact ⟨hksel, rfl, rfl⟩

/-- Settles O5. -/
theorem commandRowsMatchByMask : Obligations.CommandRowsMatchByMask := by
  have henc {w : Word} {k sb nb} : decode (.cmd w) = .ok (.cbcEnc k sb nb) ↔
      decodeCommand w = .ok ⟨.enc, k, sb, nb⟩ :=
    decode_cmd_toInstr_iff (c := ⟨.enc, k, sb, nb⟩)
  have hdec {w : Word} {k sb nb} : decode (.cmd w) = .ok (.cbcDec k sb nb) ↔
      decodeCommand w = .ok ⟨.dec, k, sb, nb⟩ :=
    decode_cmd_toInstr_iff (c := ⟨.dec, k, sb, nb⟩)
  simp only [Obligations.CommandRowsMatchByMask, henc, hdec]
  refine fun w => ⟨mask_eq_op_iff_decodes (op := .enc), mask_eq_op_iff_decodes (op := .dec), ?_⟩
  rintro k s n (h | h)
  · exact decodeCommand_fields h
  · exact decodeCommand_fields h

end Sys2Proof

/-! ## A placed table word is what the next step runs (log 11, log 12) -/

namespace Sys2Proof.Machine

theorem decodeSelector_of_tableWord {w : Nat} {i : Instr} (h : decodeTableWord 16 w = some i) :
    decodeSelector (BitVec.ofNat 9 w) 0#32 = .ok i := by
  simp only [decodeTableWord, decode, Nat.le_refl, ↓reduceIte] at h
  split_ifs at h
  cases hd : decodeSelector (BitVec.ofNat 9 w) 0#32 with
  | error c => simp [hd, Except.toOption] at h
  | ok j => simpa [hd, Except.toOption] using h

theorem withFetchWord_selector (s : State) (w : Nat) :
    s.withFetchWord 16 w = placeTransaction (selectorTxn (BitVec.ofNat 9 w) 0#32) s := rfl

theorem withFetchWord_command {w : Nat} {c : Command} (h : checkCommand (BitVec.ofNat 32 w) = .ok c) (s : State) :
    s.withFetchWord 32 w = withEvents (.engine :: s.events) (acceptCommand (BitVec.ofNat 32 w) c s) := by
  simp only [State.withFetchWord, placeWord, ↓reduceIte, placeCommandWord, h]

/-- Settles O11: the selector's transaction is the first input, and an accepted command has the engine's turn first. -/
theorem placedTableWordRunsNext : Obligations.PlacedTableWordRunsNext := by
  refine ⟨fun s w i h => ?_, fun s w c h => ?_⟩
  · have hdecode := (decodeTxn_selectorTxn _ _).trans (decodeSelector_of_tableWord h)
    rw [withFetchWord_selector]
    exact stepRunsTheDecodedTransaction (placeTransaction _ s) _ s.events i rfl rfl hdecode
  · rw [withFetchWord_command h]
    obtain ⟨hengine, -⟩ :=
      stepRunsThePendingCommand (withEvents (.engine :: s.events) (acceptCommand (BitVec.ofNat 32 w) c s)) c rfl rfl
    exact hengine s.events rfl

end Sys2Proof.Machine

/-! ## Checksums and hex digits as numbers (40 R100, R104, R107 to R109) -/

namespace Sys2Proof.Machine

variable {c c0 c1 b x y : Byte} {p claimed : List Byte}

/-! ### The checksum -/

theorem checksum_toNat (p : List Byte) : (checksum p).toNat = (p.map BitVec.toNat).sum % 256 := by
  induction p with
  | nil => rfl
  | cons b p ih => simp [ih]

/-- Settles O23. -/
theorem checksumIsTheSumModulo256 : Obligations.ChecksumIsTheSumModulo256 := ⟨rfl, checksum_toNat⟩

theorem checksum_eq_sum (p : List Byte) : checksum p = p.sum := by
  induction p with
  | nil => rfl
  | cons b p ih => rw [checksum_cons, List.sum_cons, ih]

theorem checksum_perm {q : List Byte} (h : p.Perm q) : checksum p = checksum q := by
  rw [checksum_eq_sum, checksum_eq_sum, h.sum_eq]

/-! ### The character functions in numbers -/

theorem hexchar_toNat (n : BitVec 4) :
    (hexchar n).toNat = if n.toNat ≤ 9 then 0x30 + n.toNat else 0x41 + (n.toNat - 10) := by
  simp only [hexchar, BitVec.le_def, BitVec.toNat_ofNat]
  split_ifs <;> bv_omega

theorem ishex_iff : ishex c = true ↔ 0x30 ≤ c.toNat ∧ c.toNat ≤ 0x39
    ∨ 0x41 ≤ c.toNat ∧ c.toNat ≤ 0x46 ∨ 0x61 ≤ c.toNat ∧ c.toNat ≤ 0x66 := by
  simp [ishex, BitVec.le_def, or_assoc]

theorem hexval_toNat (hc : ishex c = true) : (hexval c).toNat =
    if c.toNat ≤ 0x39 then c.toNat - 0x30 else if c.toNat ≤ 0x46 then c.toNat - 0x37 else c.toNat - 0x57 := by
  rw [ishex_iff] at hc
  unfold hexval
  split_ifs <;> bv_omega

theorem fold_toNat (c : Byte) :
    (fold c).toNat = if 0x61 ≤ c.toNat ∧ c.toNat ≤ 0x7A then c.toNat - 0x20 else c.toNat := by
  simp only [fold, Bool.and_eq_true, decide_eq_true_eq]
  split_ifs <;> bv_omega

theorem characterCodes : CharacterCodes := by
  refine ⟨hexchar_toNat, fun c => ⟨ishex_iff, fun h => ?_, fun h => ?_, fun h => ?_, fold_toNat c⟩⟩
  all_goals
    rw [hexval_toNat (ishex_iff.mpr (by omega))]
    split_ifs <;> omega

theorem highNibble_toNat (b : Byte) : (highNibble b).toNat = b.toNat / 16 := by
  have := b.isLt
  rw [highNibble, BitVec.extractLsb'_toNat, Nat.shiftRight_eq_div_pow]
  omega

theorem lowNibble_toNat (b : Byte) : (lowNibble b).toNat = b.toNat % 16 := by
  simp [lowNibble]

theorem fold_hexchar (n : BitVec 4) : fold (hexchar n) = hexchar n := by
  apply BitVec.eq_of_toNat_eq
  rw [fold_toNat, hexchar_toNat]
  split_ifs <;> omega

theorem fold_eq_hexchar_of_either_case {n : BitVec 4}
    (h : c = hexchar n ∨ 0x61 ≤ c.toNat ∧ c.toNat = (hexchar n).toNat + 0x20 ∧ c.toNat ≤ 0x66) :
    fold c = hexchar n := by
  obtain rfl | ⟨hlo, hc, hhi⟩ := h
  · exact fold_hexchar n
  · apply BitVec.eq_of_toNat_eq
    rw [fold_toNat, if_pos ⟨hlo, by omega⟩]
    omega

/-! ### Two digits spell one byte -/

theorem digits_toNat (hx : x ≤ 15#8) (hy : y ≤ 15#8) : (16#8 * x + y).toNat = 16 * x.toNat + y.toNat := by
  bv_omega

theorem digits_eq_iff (hx : x ≤ 15#8) (hy : y ≤ 15#8) :
    16#8 * x + y = b ↔ x = (highNibble b).setWidth 8 ∧ y = (lowNibble b).setWidth 8 := by
  have hhigh := highNibble_toNat b
  have hlow := lowNibble_toNat b
  constructor
  · rintro rfl
    rw [digits_toNat hx hy] at hhigh hlow
    constructor <;> bv_omega
  · rintro ⟨rfl, rfl⟩
    exact nibbles_join b

/-- Two characters fold to the digits of a byte exactly when they are hex digits that spell it: the two readings of
40 R109, and the law of 40 R110. -/
theorem fold_digits_iff : fold c0 = hexchar (highNibble b) ∧ fold c1 = hexchar (lowNibble b) ↔
    (ishex c0 = true ∧ ishex c1 = true) ∧ 16#8 * hexval c0 + hexval c1 = b := by
  have hdigits (h0 : ishex c0 = true) (h1 : ishex c1 = true) :=
    digits_eq_iff (b := b) (hexval_le c0 h0) (hexval_le c1 h1)
  rw [fold_eq_hexchar, fold_eq_hexchar]
  constructor
  · rintro ⟨⟨h0, hx⟩, h1, hy⟩
    exact ⟨⟨h0, h1⟩, (hdigits h0 h1).mpr ⟨hx, hy⟩⟩
  · rintro ⟨⟨h0, h1⟩, h⟩
    obtain ⟨hx, hy⟩ := (hdigits h0 h1).mp h
    exact ⟨⟨h0, hx⟩, h1, hy⟩

theorem foldPair_eq_format_iff :
    [fold c0, fold c1] = format b ↔ fold c0 = hexchar (highNibble b) ∧ fold c1 = hexchar (lowNibble b) := by
  simp [format]

theorem parse_eq_some_iff : parse claimed = some b ↔
    ∃ c0 c1, claimed = [c0, c1] ∧ (ishex c0 = true ∧ ishex c1 = true) ∧ 16#8 * hexval c0 + hexval c1 = b := by
  match claimed with
  | [c0, c1] => simp [parse]
  | [] | [_] | _ :: _ :: _ :: _ => simp [parse]

theorem verify_iff : verify p claimed = true ↔
    ∃ c0 c1, claimed = [c0, c1] ∧ [fold c0, fold c1] = format (checksum p) := by
  rw [verify, beq_iff_eq]
  match claimed with
  | [c0, c1] => simp
  | [] | [_] | _ :: _ :: _ :: _ => simp [format]

theorem verify_iff_parse : verify p claimed = true ↔ parse claimed = some (checksum p) := by
  simp only [verify_iff, parse_eq_some_iff, foldPair_eq_format_iff, fold_digits_iff]

/-- Settles O33: both readings ask for two hex digits that spell the checksum. -/
theorem verifyIsParseEqualToTheChecksum : Obligations.VerifyIsParseEqualToTheChecksum := by
  refine fun p claimed => ⟨verify_iff, verify_iff_parse, fun b => ?_, characterCodes⟩
  have hvalue (c0 c1 : Byte) (h0 : ishex c0 = true) (h1 : ishex c1 = true) :
      16#8 * hexval c0 + hexval c1 = b ↔ b.toNat = 16 * (hexval c0).toNat + (hexval c1).toNat := by
    rw [← digits_toNat (hexval_le c0 h0) (hexval_le c1 h1), BitVec.toNat_inj, eq_comm]
  simp only [parse_eq_some_iff, and_assoc]
  exact exists₂_congr fun c0 c1 => and_congr_right fun _ => and_congr_right fun h0 => and_congr_right (hvalue c0 c1 h0)

/-- Settles O34: folding changes no digit of a formatted byte. -/
theorem formattedChecksumVerifies : Obligations.FormattedChecksumVerifies := by
  have hverify (p : List Byte) : verify p (format (checksum p)) = true :=
    verify_iff.mpr ⟨_, _, rfl, by simp only [fold_hexchar, format]⟩
  refine ⟨fun b => ?_, hverify⟩
  simpa using verify_iff_parse.mp (hverify [b])

end Sys2Proof.Machine

/-! ## The instructions of the checksum unit (40 R101 to R112) -/

namespace Sys2Proof.Machine

variable {s t : State} {i : Instr} {d : Word}

theorem decodesTo_of_selector {dir : Dir} {off : BitVec 8} {r : Except BusCause Instr}
    (h : decodeSelector (selector dir off) d = r) : DecodesTo dir off d r := by
  intro n
  split_ifs with hn
  · rw [hn, decodeTxn_word, h]
  · rw [decodeTxn, if_pos hn]

/-! ### Accumulator -/

/-- Settles O24. -/
theorem accumulatorWriteLoadsTheLowByte : Obligations.AccumulatorWriteLoadsTheLowByte :=
  fun s d => ⟨decodesTo_of_selector rfl, exec_cksAccWr s d⟩

/-- Settles O29. -/
theorem accumulatorReadAnswersTheAccumulator : Obligations.AccumulatorReadAnswersTheAccumulator := by
  refine fun s d => ⟨decodesTo_of_selector rfl, ?_⟩
  rw [exec_cksAccRd, BitVec.setWidth_eq_append (by decide)]
  rfl

theorem ofNat_mod_256 (n : Nat) : BitVec.ofNat 8 (n % 256) = BitVec.ofNat 8 n :=
  BitVec.eq_of_toNat_eq (by simp)

/-- Settles O25. -/
theorem byteAddAddsTheLowByte : Obligations.ByteAddAddsTheLowByte := by
  refine fun s d => ⟨decodesTo_of_selector rfl, decodesTo_of_selector rfl, ?_⟩
  rw [exec_cksIn8, ofNat_mod_256]
  rfl

/-- Settles O26. -/
theorem wordAddAddsFourBytes : Obligations.WordAddAddsFourBytes := by
  refine fun s d => ⟨decodesTo_of_selector rfl, decodesTo_of_selector rfl, ?_⟩
  simp only [exec_cksIn32, ofNat_mod_256, BitVec.ofNat_add, BitVec.ofNat_toNat, BitVec.setWidth_eq]
  rfl

theorem formatWord_fields (b : Byte) : (formatWord b).extractLsb 31 16 = 0#16
    ∧ (formatWord b).extractLsb 7 0 = hexchar (highNibble b)
    ∧ (formatWord b).extractLsb 15 8 = hexchar (lowNibble b) := by
  unfold formatWord
  refine ⟨?_, ?_, ?_⟩ <;> grind

/-- Settles O28: the digits are those of the two halves of `acc`. -/
theorem hexReadSpellsTheAccumulator : Obligations.HexReadSpellsTheAccumulator := by
  intro s d
  obtain ⟨hzero, hhigh, hlow⟩ := formatWord_fields s.acc
  refine ⟨decodesTo_of_selector rfl, decodesTo_of_selector rfl, _, exec_cksHexRd s, hzero, ?_, ?_⟩
  · rw [hhigh, hexchar_toNat, highNibble_toNat]
  · rw [hlow, hexchar_toNat, lowNibble_toNat]

/-! ### Verify -/

theorem vfyMatch_eq_decide (acc : Byte) (d : Word) : vfyMatch acc d = decide (vfyLen d = 2#2
    ∧ fold (vfyChar0 d) = hexchar (highNibble acc) ∧ fold (vfyChar1 d) = hexchar (lowNibble acc)) := by
  rw [Bool.eq_iff_iff]
  simp [vfyMatch, vfyTwo, and_assoc]

theorem vfyPvalid_eq_decide (d : Word) : vfyPvalid d =
    decide (vfyLen d = 2#2 ∧ ishex (vfyChar0 d) = true ∧ ishex (vfyChar1 d) = true) := by
  rw [Bool.eq_iff_iff]
  simp [vfyPvalid, vfyTwo, and_assoc]

/-- The law of 40 R110, on the word written. -/
theorem vfyMatch_eq (acc : Byte) (d : Word) : vfyMatch acc d = (vfyPvalid d && vfyPval d == acc) := by
  have hmatch : vfyMatch acc d = true ↔
      vfyPvalid d = true ∧ 16#8 * hexval (vfyChar0 d) + hexval (vfyChar1 d) = acc := by
    simp only [vfyMatch_eq_decide, vfyPvalid_eq_decide, decide_eq_true_eq, fold_digits_iff, and_assoc]
  rw [Bool.eq_iff_iff, hmatch]
  cases hv : vfyPvalid d with
  | false => simp
  | true => simp [vfyPval, hv]

/-- Settles O31, by the law on the word written. -/
theorem matchIsValidAndEqualToTheAccumulator : Obligations.MatchIsValidAndEqualToTheAccumulator := by
  intro s t d h
  cases h
  exact ⟨vfyMatch_eq s.acc d, rfl⟩

/-- The fields of the word that `cks.vfyn` writes (30 R89). -/
theorem claimWord_fields (c0 c1 : Byte) (len : BitVec 2) : vfyChar0 (0#14 ++ len ++ c1 ++ c0) = c0
    ∧ vfyChar1 (0#14 ++ len ++ c1 ++ c0) = c1 ∧ vfyLen (0#14 ++ len ++ c1 ++ c0) = len := by
  unfold vfyChar0 vfyChar1 vfyLen byteLane
  refine ⟨?_, ?_, ?_⟩ <;> grind

theorem vfyMatch_claimWord_iff {acc c0 c1 : Byte} {len : BitVec 2} :
    vfyMatch acc (0#14 ++ len ++ c1 ++ c0) = true ↔ len = 2#2 ∧ [fold c0, fold c1] = format acc := by
  obtain ⟨hchar0, hchar1, hlen⟩ := claimWord_fields c0 c1 len
  rw [vfyMatch_eq_decide, decide_eq_true_iff, hchar0, hchar1, hlen, foldPair_eq_format_iff]

/-- Settles O30: a spelling in either case folds to the digits of `acc`, so it matches, and a match is valid with the
value `acc`. -/
theorem verifyWriteComparesAndParses : Obligations.VerifyWriteComparesAndParses := by
  refine fun s d => ⟨decodesTo_of_selector rfl, ?_, characterCodes, fun c0 c1 h0 h1 => ⟨_, exec_cksVfyWr s _, ?_⟩⟩
  · simp only [exec_cksVfyWr, vfyMatch_eq_decide, vfyPval, vfyPvalid_eq_decide, decide_eq_true_eq]
    rfl
  · have hmatch : vfyMatch s.acc (0#14 ++ 2#2 ++ c1 ++ c0) = true :=
      vfyMatch_claimWord_iff.mpr ⟨rfl, foldPair_eq_format_iff.mpr
        ⟨fold_eq_hexchar_of_either_case h0, fold_eq_hexchar_of_either_case h1⟩⟩
    have hlaw := vfyMatch_eq s.acc (0#14 ++ 2#2 ++ c1 ++ c0)
    rw [hmatch, eq_comm, Bool.and_eq_true, beq_iff_eq] at hlaw
    exact ⟨hmatch, hlaw⟩

theorem vfyWord_fields (s : State) : (vfyWord s).extractLsb 31 16 = 0#16 ∧ (vfyWord s).extractLsb 15 8 = s.pval
    ∧ (vfyWord s).extractLsb 7 2 = 0#6 ∧ (vfyWord s).extractLsb 1 1 = BitVec.ofBool s.pvalid
    ∧ (vfyWord s).extractLsb 0 0 = BitVec.ofBool s.vmatch := by
  unfold vfyWord
  refine ⟨?_, ?_, ?_, ?_, ?_⟩ <;> grind

/-- Settles O32. -/
theorem verifyReadAnswersTheResult : Obligations.VerifyReadAnswersTheResult :=
  fun s _ => ⟨decodesTo_of_selector rfl, _, exec_cksVfyRd s, vfyWord_fields s⟩

/-! ### Feeding a payload -/

/-- An adding instruction adds the checksum of its bytes (40 R102, R103). -/
theorem exec_adds (hi : bytesAdded i ≠ []) (s : State) :
    exec i s = .next (respondWrite (setAcc (s.acc + checksum (bytesAdded i)) s)) := by
  cases i with
  | cksIn8 d => simp [exec_cksIn8, bytesAdded, dataByte]
  | cksIn32 d => simp [exec_cksIn32, bytesAdded, BitVec.add_assoc]
  | _ => exact absurd rfl hi

theorem bytesAdded_add8 (b : Byte) : bytesAdded (.cksIn8 (b.setWidth 32)) = [b] := by
  simp only [bytesAdded, byteLane, List.cons.injEq, and_true]
  grind

theorem bytesAdded_add32 (b0 b1 b2 b3 : Byte) :
    bytesAdded (.cksIn32 (wordOfBytes b0 b1 b2 b3)) = [b0, b1, b2, b3] := by
  simp only [bytesAdded, byteLane, wordOfBytes, List.cons.injEq, and_true]
  refine ⟨?_, ?_, ?_, ?_⟩ <;> grind

/-- Adding bytes one after another adds their checksum. -/
theorem execAll_add8 (b : Byte) (l : List Byte) (s : State) : execAll ((b :: l).flatMap pseudoCksAdd8) s =
    .next (respondWrite (setAcc (s.acc + checksum (b :: l)) s)) := by
  have hadd (b : Byte) (s : State) :
      exec (.cksIn8 (b.setWidth 32)) s = .next (respondWrite (setAcc (s.acc + b) s)) := by
    simp [exec_adds, bytesAdded_add8]
  induction l generalizing b s with
  | nil => simp [pseudoCksAdd8, execAll, hadd]
  | cons b' l ih =>
    rw [List.flatMap_cons, pseudoCksAdd8, List.singleton_append, execAll, hadd]
    simp only [ih, respondWrite_acc, setAcc_acc, checksum_cons, BitVec.add_assoc]
    rfl

/-- Settles O27: both sides add the checksum of the same four bytes. -/
theorem wordAddEqualsFourByteAddsInAnyOrder : Obligations.WordAddEqualsFourByteAddsInAnyOrder := by
  intro s b0 b1 b2 b3 l hl
  have hword : execAll (pseudoCksAdd32 b0 b1 b2 b3) s =
      .next (respondWrite (setAcc (s.acc + checksum [b0, b1, b2, b3]) s)) := by
    simp only [pseudoCksAdd32, execAll, exec_adds, bytesAdded_add32, ne_eq, reduceCtorEq, not_false_eq_true]
  rw [hword, ← checksum_perm hl]
  cases l with
  | nil => simp at hl
  | cons b l => exact execAll_add8 b l s

theorem bytesAdded_eq_nil (hi : writesChecksumUnit i = false) : bytesAdded i = [] := by
  cases i <;> simp_all [bytesAdded, writesChecksumUnit]

/-- Only CKS_ACC_WR changes the accumulator otherwise than by adding. -/
theorem exec_acc (hi : ∀ d, i ≠ .cksAccWr d) (h : exec i s = .next t) :
    t.acc = s.acc + checksum (bytesAdded i) := by
  cases hc : writesChecksumUnit i with
  | false =>
    obtain ⟨hacc, -⟩ := exec_sameChecksumUnit hc h
    simpa [bytesAdded_eq_nil hc] using hacc
  | true =>
    cases i with
    | cksAccWr d => exact absurd rfl (hi d)
    | cksIn8 d | cksIn32 d =>
      rw [exec_adds (by simp [bytesAdded])] at h
      cases h
      rfl
    | cksVfyWr d => cases h; simp [bytesAdded]
    | _ => cases hc

theorem execAll_acc (is : List Instr) (s : State) (his : ∀ i ∈ is, ∀ d, i ≠ .cksAccWr d) :
    ∃ t, execAll is s = .next t ∧ t.acc = s.acc + checksum (is.flatMap bytesAdded) := by
  induction is generalizing s with
  | nil => exact ⟨s, rfl, by simp⟩
  | cons i is ih =>
    obtain ⟨hi, his⟩ := List.forall_mem_cons.mp his
    obtain ⟨t, ht⟩ := exec_answers_next i s
    obtain ⟨u, hu, hacc⟩ := ih t his
    refine ⟨u, by simpa only [execAll, ht] using hu, ?_⟩
    rw [hacc, exec_acc hi ht, List.flatMap_cons, checksum_append, BitVec.add_assoc]

/-- A length clipped to 3 is 2 exactly when the length is (40 R110). -/
theorem clippedLength_eq_two_iff (n : Nat) : BitVec.ofNat 2 (min n 3) = 2#2 ↔ n = 2 := by
  bv_omega

theorem vfyMatch_claim (p claimed : List Byte) :
    vfyMatch (checksum p) (0#14 ++ BitVec.ofNat 2 (min claimed.length 3) ++ claimed.getD 1 0x00#8
      ++ claimed.getD 0 0x00#8) = verify p claimed := by
  rw [Bool.eq_iff_iff, vfyMatch_claimWord_iff, clippedLength_eq_two_iff, verify_iff]
  constructor
  · rintro ⟨hlen, hfold⟩
    obtain ⟨c0, c1, rfl⟩ := List.length_eq_two.mp hlen
    exact ⟨c0, c1, rfl, hfold⟩
  · rintro ⟨c0, c1, rfl, hfold⟩
    exact ⟨rfl, hfold⟩

/-- Settles O35: the clearing write leaves 0, and the rest adds the checksum of the payload. -/
theorem feedingAPayloadComputesItsChecksum : Obligations.FeedingAPayloadComputesItsChecksum := by
  intro s is his
  obtain ⟨t, ht, hacc⟩ := execAll_acc is (respondWrite (setAcc 0x00#8 s)) his
  have hsum : t.acc = checksum (is.flatMap bytesAdded) := by simpa using hacc
  refine ⟨t, ht, hsum, ?_, fun claimed => ⟨_, rfl, ?_⟩⟩
  · rw [exec_cksHexRd, ← hsum]
    rfl
  · rw [← vfyMatch_claim, ← hsum]
    rfl

end Sys2Proof.Machine

/-! ## CBC mode over a list of blocks (41 R142 to R144) -/

namespace Sys2Proof.Machine

variable {e d : Block → Block} {iv : Block} {ps : List Block}

theorem cbcEncrypt_getElem?_zero (e : Block → Block) (iv : Block) (ps : List Block) :
    (cbcEncrypt e iv ps)[0]? = ps[0]?.map fun p => e (xor16 p iv) := by
  cases ps <;> rfl

/-- The chaining value of a block is the output block before it. -/
theorem cbcEncrypt_getElem?_succ {i : Nat} {p c : Block} (hp : ps[i + 1]? = some p)
    (hc : (cbcEncrypt e iv ps)[i]? = some c) : (cbcEncrypt e iv ps)[i + 1]? = some (e (xor16 p c)) := by
  induction ps generalizing iv i with
  | nil => simp at hp
  | cons q qs ih =>
    rw [List.getElem?_cons_succ] at hp
    cases i with
    | zero =>
      obtain rfl : e (xor16 q iv) = c := Option.some.inj hc
      simp [cbcEncrypt, cbcEncrypt_getElem?_zero, hp]
    | succ i => exact ih hp hc

/-- Settles O36. -/
theorem cbcEncryptionIsItsDefinition : Obligations.CbcEncryptionIsItsDefinition := by
  refine fun k iv ps => ⟨cbcEncrypt_length _ _ _, fun p hp => ?_, fun i p c => cbcEncrypt_getElem?_succ⟩
  rw [cbcEncrypt_getElem?_zero, hp, Option.map_some]

/-- Decryption joins each deciphered block with the input block before it, the IV before the first. -/
theorem cbcDecrypt_eq_zipWith (d : Block → Block) (iv : Block) (cs : List Block) :
    cbcDecrypt d iv cs = List.zipWith (fun c prev => xor16 (d c) prev) cs (iv :: cs) := by
  induction cs generalizing iv with
  | nil => rfl
  | cons c cs ih => rw [cbcDecrypt, ih, List.zipWith_cons_cons]

/-- Settles O37, by the closed form. -/
theorem cbcDecryptionIsItsDefinition : Obligations.CbcDecryptionIsItsDefinition := by
  refine fun k iv cs => ⟨cbcDecrypt_length _ _ _, fun c hc => ?_, fun i c c' hc hc' => ?_⟩
  · simp [cbcDecrypt_eq_zipWith, List.getElem?_zipWith, hc]
  · simp [cbcDecrypt_eq_zipWith, List.getElem?_zipWith, hc, hc']

theorem cbcDecrypt_cbcEncrypt (h : ∀ b, d (e b) = b) (iv : Block) (bs : List Block) :
    cbcDecrypt d iv (cbcEncrypt e iv bs) = bs := by
  induction bs generalizing iv with
  | nil => rfl
  | cons b bs ih => rw [cbcEncrypt, cbcDecrypt, ih, h, xor16_cancel]

theorem cbcEncrypt_cbcDecrypt (h : ∀ b, e (d b) = b) (iv : Block) (bs : List Block) :
    cbcEncrypt e iv (cbcDecrypt d iv bs) = bs := by
  induction bs generalizing iv with
  | nil => rfl
  | cons b bs ih => rw [cbcDecrypt, cbcEncrypt, xor16_cancel, h, ih]

/-- Settles O38: the cipher's two functions undo each other, and so the modes, block by block. -/
theorem cbcModesAreInverse : Obligations.CbcModesAreInverse :=
  ⟨fun k b => ⟨Config.cipherD_cipherE k b, Config.cipherE_cipherD k b⟩, fun k iv bs =>
    ⟨cbcDecrypt_cbcEncrypt (Config.cipherD_cipherE k) iv bs, cbcEncrypt_cbcDecrypt (Config.cipherE_cipherD k) iv bs⟩⟩

/-- The first output blocks are the encryption of the first input blocks. -/
theorem cbcEncrypt_take (e : Block → Block) (iv : Block) (ps : List Block) (n : Nat) :
    (cbcEncrypt e iv ps).take n = cbcEncrypt e iv (ps.take n) := by
  induction ps generalizing iv n with
  | nil => simp [cbcEncrypt]
  | cons p ps ih =>
    cases n with
    | zero => rfl
    | succ n => simp only [cbcEncrypt, List.take_succ_cons, ih]

theorem take_succ_eq_of_getElem? {xs ys : List Block} {i : Nat} (h : ∀ j, j ≤ i → xs[j]? = ys[j]?) :
    xs.take (i + 1) = ys.take (i + 1) := by
  apply List.ext_getElem?
  intro j
  by_cases hj : j < i + 1
  · rw [List.getElem?_take_of_lt hj, List.getElem?_take_of_lt hj, h j (by omega)]
  · rw [List.getElem?_take_eq_none (by omega), List.getElem?_take_eq_none (by omega)]

/-- Settles O39: encryption commutes with taking the first blocks, and the closed form of decryption reads two. -/
theorem cbcBlocksDependOnEarlierInputOnly : Obligations.CbcBlocksDependOnEarlierInputOnly := by
  refine fun k iv xs ys i _ _ => ⟨fun h => ?_, fun hi hprev => ?_⟩
  · have hfirst (zs : List Block) : (cbcEncrypt (Config.cipherE k) iv zs)[i]?
        = (cbcEncrypt (Config.cipherE k) iv (zs.take (i + 1)))[i]? := by
      rw [← cbcEncrypt_take, List.getElem?_take_of_lt (Nat.lt_succ_self i)]
    rw [hfirst xs, hfirst ys, take_succ_eq_of_getElem? h]
  · have hchain : (iv :: xs)[i]? = (iv :: ys)[i]? := by
      cases i with
      | zero => rfl
      | succ j => exact hprev j rfl
    simp only [cbcDecrypt_eq_zipWith, List.getElem?_zipWith, hi, hchain]

/-- Settles O40: exclusive or with the zero block changes nothing. -/
theorem cbcChainsThroughTheZeroIv : Obligations.CbcChainsThroughTheZeroIv := by
  refine fun k => ⟨fun b => ⟨?_, ?_⟩, fun iv p ps => ?_, fun p q ps => ?_⟩
  · simp only [cbcEncrypt, xor16_zero]
  · simp only [cbcDecrypt, xor16_zero]
  · simp only [cbcEncrypt, xor16_zero]
  · simp only [cbcEncrypt, xor16_zero, List.cons_append, List.nil_append]

end Sys2Proof.Machine

/-! ## Issuing a command (41 R145, R146; 60 R214, R215) -/

namespace Sys2Proof

variable {w : Word}

/-- The reserved bits of a CMD word are set (10 R23). -/
def ReservedBitsSet (w : Word) : Prop :=
  w.extractLsb 31 14 ≠ 0#18 ∨ w.extractLsb 11 10 ≠ 0#2 ∨ w.extractLsb 7 5 ≠ 0#3 ∨ w.extractLsb 3 2 ≠ 0#2

theorem fields_and_reservedMask : ∀ (nb sb : BitVec 2) (k : BitVec 1) (op : BitVec 2),
    (0#18 ++ nb ++ 0#2 ++ sb ++ 0#3 ++ k ++ 0#2 ++ op) &&& cmdReservedMask = 0#32 := by
  decide

/-- The mask covers the reserved ranges and nothing else. -/
theorem reservedBitsSet_iff : ReservedBitsSet w ↔ w &&& cmdReservedMask ≠ 0#32 := by
  simp only [ReservedBitsSet, ← not_and_or, ne_eq, not_iff_not]
  constructor
  · rintro ⟨h14, h10, h5, h2⟩
    have hw := cmdWord_ranges w
    rw [show w.extractLsb' 14 18 = 0#18 from h14, show w.extractLsb' 10 2 = 0#2 from h10,
      show w.extractLsb' 5 3 = 0#3 from h5, show w.extractLsb' 2 2 = 0#2 from h2] at hw
    rw [← hw, fields_and_reservedMask]
  · intro h
    exact ⟨extractLsb'_eq_zero_of_and h (by decide), extractLsb'_eq_zero_of_and h (by decide),
      extractLsb'_eq_zero_of_and h (by decide), extractLsb'_eq_zero_of_and h (by decide)⟩

/-- OP of a CMD word is that of no command (10 R23). -/
def OpIllegal (w : Word) : Prop := w.extractLsb 1 0 = 0b00#2 ∨ w.extractLsb 1 0 = 0b11#2

theorem opIllegal_iff : OpIllegal w ↔ w.extractLsb' 0 2 ≠ 0b01#2 ∧ w.extractLsb' 0 2 ≠ 0b10#2 :=
  (by decide : ∀ op : BitVec 2, op = 0b00#2 ∨ op = 0b11#2 ↔ op ≠ 0b01#2 ∧ op ≠ 0b10#2) (w.extractLsb' 0 2)

/-! The three checks of 41 R146 in their order. -/

theorem checkCommand_rsvdBits (h : ReservedBitsSet w) : checkCommand w = .error .rsvdBits := by
  simp [checkCommand, decodeCommand, reservedBitsSet_iff.mp h]

theorem checkCommand_badOp (h : ¬ ReservedBitsSet w) (hop : OpIllegal w) : checkCommand w = .error .badOp := by
  rw [reservedBitsSet_iff, not_not] at h
  obtain ⟨h1, h2⟩ := opIllegal_iff.mp hop
  simp [checkCommand, decodeCommand, h, h1, h2]

theorem decodeCommand_legal (h : ¬ ReservedBitsSet w) (hop : ¬ OpIllegal w) :
    decodeCommand w = .ok (commandFields (if w.extractLsb 1 0 = 0b01#2 then .enc else .dec) w) := by
  rw [reservedBitsSet_iff, not_not] at h
  rw [opIllegal_iff, not_and_or, not_not, not_not] at hop
  have hranges : w.extractLsb 1 0 = w.extractLsb' 0 2 := rfl
  obtain hop | hop := hop
  · simp [decodeCommand, h, hop, hranges.trans hop]
  · simp [decodeCommand, h, hop, hranges.trans hop]

theorem checkCommand_range (h : ¬ ReservedBitsSet w) (hop : ¬ OpIllegal w)
    (hr : 4 < (w.extractLsb 9 8).toNat + ((w.extractLsb 13 12).toNat + 1)) : checkCommand w = .error .range := by
  have hout := (blocksInRange_false_iff (w.extractLsb 9 8) (w.extractLsb 13 12)).mpr hr
  simp only [checkCommand, decodeCommand_legal h hop]
  exact if_neg (ne_true_of_eq_false hout)

theorem checkCommand_legal (h : ¬ ReservedBitsSet w) (hop : ¬ OpIllegal w)
    (hr : ¬ 4 < (w.extractLsb 9 8).toNat + ((w.extractLsb 13 12).toNat + 1)) :
    checkCommand w = .ok (commandFields (if w.extractLsb 1 0 = 0b01#2 then .enc else .dec) w) :=
  checkCommand_ok_iff.mpr ⟨decodeCommand_legal h hop, (blocksInRange_iff _ _).mpr (Nat.le_of_not_lt hr)⟩

end Sys2Proof

namespace Sys2Proof.Machine

/-- Settles O41: an idle unit does what the checks of the word say. -/
theorem cmdWriteAcceptsOrRejects : Obligations.CmdWriteAcceptsOrRejects := by
  refine fun s w => ⟨decodesTo_of_selector rfl, fun hb => exec_cmdWr_busy hb w, fun hb => ?_⟩
  rw [exec_cmdWr, whenIdle_idle _ _ _ hb]
  split
  next hres =>
    rw [issueCommand_rejected s (checkCommand_rsvdBits hres)]
    rfl
  next hres =>
    split
    next hop =>
      rw [issueCommand_rejected s (checkCommand_badOp hres hop)]
      rfl
    next hop =>
      split
      next hr =>
        rw [issueCommand_rejected s (checkCommand_range hres hop hr)]
        rfl
      next hr =>
        rw [issueCommand_accepted s (checkCommand_legal hres hop hr)]
        rfl

end Sys2Proof.Machine

/-! ## CBC commands, performed in place (41 R147 to R150, R152) -/

namespace Sys2Proof.Machine

variable {m n : Memory} {j k : Nat} {c c' : Command} {s t : State}

/-! ### Blocks of BUF as bytes -/

theorem Memory.toList_readBlock (m : Memory) (j : Nat) :
    (Memory.readBlock m j).toList = (List.range 16).map fun i => Memory.read m (16 * j + i) := rfl

/-- The bytes of consecutive blocks are the consecutive bytes of BUF. -/
theorem Memory.blockBytes_readBlocks (m : Memory) (j k : Nat) : blockBytes (Memory.readBlocks m j k) =
    (List.range (16 * k)).map fun i => Memory.read m (16 * j + i) := by
  induction k generalizing j with
  | zero => rfl
  | succ k ih =>
    have hrange : List.range (16 * (k + 1)) = List.range 16 ++ (List.range (16 * k)).map (16 + ·) := by
      rw [Nat.mul_succ, Nat.add_comm, List.range_add]
    have hcons : blockBytes (Memory.readBlocks m j (k + 1)) =
        (Memory.readBlock m j).toList ++ blockBytes (Memory.readBlocks m (j + 1) k) := rfl
    rw [hcons, ih, Memory.toList_readBlock, hrange, List.map_append, List.map_map]
    simp [Nat.mul_succ, Nat.add_assoc]

/-- Equal blocks have equal bytes. -/
theorem Memory.read_eq_of_readBlocks_eq (h : Memory.readBlocks m j k = Memory.readBlocks n j k) {i : Nat}
    (hlo : 16 * j ≤ i) (hhi : i < 16 * (j + k)) : Memory.read m i = Memory.read n i := by
  have hbytes := congrArg blockBytes h
  rw [Memory.blockBytes_readBlocks, Memory.blockBytes_readBlocks, List.map_inj_left] at hbytes
  have hi := hbytes (i - 16 * j) (List.mem_range.mpr (by omega))
  rwa [Nat.add_sub_cancel' hlo] at hi

/-! ### What a command leaves in BUF -/

/-- BUF after command `c` was performed on it. -/
def commandResult (c : Command) (m : Memory) : Memory :=
  m.writeBlocks c.sblk.toNat (commandMode c (m.readBlocks c.sblk.toNat (blockCount c.nbm1)))

theorem exec_inRange (hc : c.inRange = true) (s : State) :
    exec c.toInstr s = .next (finishCommand (commandResult c s.buf) s) :=
  exec_toInstr_inRange s hc

theorem exec_inRange_buf (hc : c.inRange = true) (h : exec c.toInstr s = .next t) : t.buf = commandResult c s.buf := by
  rw [exec_inRange hc, Host.Outcome.next.injEq] at h
  rw [← h, finishCommand_buf]

/-- The command's blocks become their image under its mode. -/
theorem readBlocks_commandResult (c : Command) (m : Memory) :
    (commandResult c m).readBlocks c.sblk.toNat (blockCount c.nbm1) =
      commandMode c (m.readBlocks c.sblk.toNat (blockCount c.nbm1)) := by
  have h := Memory.readBlocks_writeBlocks m c.sblk.toNat
    (commandMode c (m.readBlocks c.sblk.toNat (blockCount c.nbm1)))
  rwa [commandMode_length, Memory.readBlocks_length] at h

/-- Every other byte reads as before. -/
theorem read_commandResult_outside (c : Command) (m : Memory) {i : Nat}
    (h : i < 16 * c.sblk.toNat ∨ 16 * (c.sblk.toNat + blockCount c.nbm1) ≤ i) :
    (commandResult c m).read i = m.read i := by
  rw [commandResult, Memory.read_writeBlocks, commandMode_length, Memory.readBlocks_length, if_neg (by omega)]

/-- An accepted command, either operation: its blocks in place, its frame, its end. -/
theorem command_performed_in_place (hc : c.inRange = true) (s : State) :
    decode (.cmd c.word) = .ok c.toInstr ∧ ∃ m : Memory,
      exec c.toInstr s = .next { s with buf := m, busy := false, done := true, pending := none }
      ∧ m.readBlocks c.sblk.toNat (blockCount c.nbm1) =
          commandMode c (s.buf.readBlocks c.sblk.toNat (blockCount c.nbm1))
      ∧ SameBufOutside (16 * c.sblk.toNat) (16 * blockCount c.nbm1) s { s with buf := m } :=
  ⟨decode_cmd_toInstr_iff.mpr (decodeCommand_ok_iff.mpr rfl), commandResult c s.buf, exec_inRange hc s,
    readBlocks_commandResult c s.buf, fun _ hi => read_commandResult_outside c s.buf (by omega)⟩

/-- Settles O42. -/
theorem encryptCommandEncryptsItsBlocks : Obligations.EncryptCommandEncryptsItsBlocks := by
  intro s k sb nb h
  have hc := command_performed_in_place (c := ⟨.enc, k, sb, nb⟩) ((blocksInRange_iff sb nb).mpr h) s
  cases k <;> exact hc

/-- Settles O43. -/
theorem decryptCommandDecryptsItsBlocks : Obligations.DecryptCommandDecryptsItsBlocks := by
  intro s k sb nb h
  have hc := command_performed_in_place (c := ⟨.dec, k, sb, nb⟩) ((blocksInRange_iff sb nb).mpr h) s
  cases k <;> exact hc

/-- Settles O44. -/
theorem outOfRangeCommandIsACommandError : Obligations.OutOfRangeCommandIsACommandError := by
  intro s k sb nb h
  have hout := (blocksInRange_false_iff sb nb).mpr h
  rw [exec_cbcEnc, exec_cbcDec, completeCommand_outOfRange _ s hout, completeCommand_outOfRange _ s hout]
  exact ⟨rfl, rfl⟩

/-! ### One command after another, and two runs of one -/

/-- A command on the same blocks whose mode undoes the first restores BUF, byte by byte. -/
theorem commandResult_undo (hm : m.wf) (hc : c.inRange = true) (hsb : c'.sblk = c.sblk) (hnb : c'.nbm1 = c.nbm1)
    (hundo : ∀ bs, commandMode c' (commandMode c bs) = bs) : commandResult c' (commandResult c m) = m := by
  have hc' : c'.inRange = true := by rwa [Command.inRange, hsb, hnb]
  have hblocks : (commandResult c' (commandResult c m)).readBlocks c.sblk.toNat (blockCount c.nbm1) =
      m.readBlocks c.sblk.toNat (blockCount c.nbm1) := by
    have h := readBlocks_commandResult c' (commandResult c m)
    rwa [hsb, hnb, readBlocks_commandResult, hundo] at h
  refine Memory.ext_of_read (commandResult_wf (commandResult_wf hm hc) hc') hm fun i => ?_
  by_cases hi : 16 * c.sblk.toNat ≤ i ∧ i < 16 * (c.sblk.toNat + blockCount c.nbm1)
  · exact Memory.read_eq_of_readBlocks_eq hblocks hi.1 hi.2
  · rw [read_commandResult_outside c' _ (by rw [hsb, hnb]; omega), read_commandResult_outside c m (by omega)]

/-- Settles O45: each mode undoes the other. -/
theorem encryptThenDecryptRestoresBuf : Obligations.EncryptThenDecryptRestoresBuf := by
  intro s t u k sb nb hm hr
  obtain ⟨-, hmodes⟩ := cbcModesAreInverse
  refine ⟨fun h h' => ?_, fun h h' => ?_⟩
  · rw [exec_inRange_buf (c := ⟨.dec, k, sb, nb⟩) hr h', exec_inRange_buf (c := ⟨.enc, k, sb, nb⟩) hr h]
    exact commandResult_undo hm hr rfl rfl fun bs => (hmodes (keyOf k) zeroBlock bs).1
  · rw [exec_inRange_buf (c := ⟨.enc, k, sb, nb⟩) hr h', exec_inRange_buf (c := ⟨.dec, k, sb, nb⟩) hr h]
    exact commandResult_undo hm hr rfl rfl fun bs => (hmodes (keyOf k) zeroBlock bs).2

/-- Settles O46: the result blocks are the mode's image of the input blocks. -/
theorem commandResultDependsOnItsBlocksOnly : Obligations.CommandResultDependsOnItsBlocksOnly := by
  intro s s' t t' c hc hsame h h' i hlo hhi
  rw [exec_inRange_buf hc h, exec_inRange_buf hc h']
  refine Memory.read_eq_of_readBlocks_eq ?_ hlo hhi
  rw [readBlocks_commandResult, readBlocks_commandResult, Memory.readBlocks_congr hsame]

end Sys2Proof.Machine

/-! ## The AUTH transforms (41 R160 to R166) -/

namespace Sys2Proof.Machine

variable {s : State} {c : Command}

theorem slice_length (q : List Byte) {a b : Nat} (h : b ≤ q.length) : (slice q a b).length = b - a := by
  simp only [slice, List.length_take, List.length_drop]
  omega

/-- A slice within a sequence is its bytes one by one. -/
theorem slice_eq_map_range (q : List Byte) {a b : Nat} (h : b ≤ q.length) :
    slice q a b = (List.range (b - a)).map fun i => q.getD (a + i) 0x00#8 := by
  refine List.ext_getElem (by simp [slice_length q h]) fun i hi _ => ?_
  rw [slice_length q h] at hi
  have hq : a + i < q.length := by omega
  simp [slice, hq]

/-- A block of BUF that holds the bytes of a sequence is that block of the sequence. -/
theorem readBlock_eq_blockAt {m : Memory} {q : List Byte} {j k : Nat}
    (h : ∀ i, i < k → m.read i = q.getD i 0x00#8) (hj : 16 * (j + 1) ≤ k) : m.readBlock j = blockAt q j := by
  apply Vector.ext
  intro i hi
  simp only [Memory.readBlock, blockAt, Vector.getElem_ofFn, blockByteIndex]
  exact h _ (by omega)

/-- The command's bytes of BUF become those of its result blocks. -/
theorem bytes_commandResult (c : Command) (m : Memory) :
    (List.range (16 * blockCount c.nbm1)).map (fun i => (commandResult c m).read (16 * c.sblk.toNat + i)) =
      blockBytes (commandMode c (m.readBlocks c.sblk.toNat (blockCount c.nbm1))) := by
  rw [← Memory.blockBytes_readBlocks, readBlocks_commandResult]

/-- `CBC_DEC` with `KEY_D2H` on blocks 1 to 3 (41 R165). -/
def authDecryptCommand : Command := ⟨.dec, .d2h, 1#2, 2#2⟩

/-- `CBC_ENC` with `KEY_H2D` on blocks 0 and 1 (41 R165). -/
def authEncryptCommand : Command := ⟨.enc, .h2d, 0#2, 1#2⟩

/-- Settles O57: blocks 1 to 3 of BUF are those of the challenge, and the header is no block of the command. -/
theorem authDecryptCommandComputesThePlaintext : Obligations.AuthDecryptCommandComputesThePlaintext := by
  intro s ch hlen hbuf
  have hblocks : s.buf.readBlocks 1 3 = [blockAt ch 1, blockAt ch 2, blockAt ch 3] := by
    simp only [Memory.readBlocks, readBlock_eq_blockAt hbuf, Nat.reduceAdd, Nat.reduceMul, Nat.reduceLeDiff]
  refine ⟨_, exec_inRange (c := authDecryptCommand) rfl s, ?_, ?_⟩
  · calc _ = blockBytes (commandMode authDecryptCommand (s.buf.readBlocks 1 3)) :=
          bytes_commandResult authDecryptCommand s.buf
      _ = authPlain ch := by rw [hblocks]; rfl
  · rw [slice_eq_map_range ch (by omega), List.map_inj_left]
    intro i hi
    have hi16 : i < 16 := List.mem_range.mp hi
    rw [finishCommand_buf, read_commandResult_outside authDecryptCommand s.buf (.inl hi16), hbuf i (by omega),
      Nat.zero_add]

/-- Settles O58: blocks 0 and 1 of BUF are those of the response plaintext. -/
theorem authEncryptCommandComputesTheBody : Obligations.AuthEncryptCommandComputesTheBody := by
  intro s q hlen hbuf
  have hblocks : s.buf.readBlocks 0 2 = [blockAt (authResponsePlain q) 0, blockAt (authResponsePlain q) 1] := by
    simp only [Memory.readBlocks, readBlock_eq_blockAt hbuf, Nat.reduceAdd, Nat.reduceMul, Nat.reduceLeDiff]
  refine ⟨_, exec_inRange (c := authEncryptCommand) rfl s, ?_, ?_⟩
  · refine congrArg (Config.auth2Hdr.toList ++ ·) ?_
    calc (List.range 32).map (commandResult authEncryptCommand s.buf).read
        = (List.range (16 * 2)).map fun i => (commandResult authEncryptCommand s.buf).read (16 * 0 + i) := by simp
      _ = blockBytes (commandMode authEncryptCommand (s.buf.readBlocks 0 2)) :=
          bytes_commandResult authEncryptCommand s.buf
      _ = blockBytes (cbcEncrypt (Config.cipherE Config.keyH2D) zeroBlock
          [blockAt (authResponsePlain q) 0, blockAt (authResponsePlain q) 1]) := by rw [hblocks]; rfl
  · simp [auth2Body, blockBytes_length]

/-- Settles O59. -/
theorem validPlaintextGivesTheSwappedResponse : Obligations.ValidPlaintextGivesTheSwappedResponse := by
  intro q hlen
  have hvalid : authBodyValid q = true ↔ slice q 8 16 = List.replicate 8 0x00#8 ∧ slice q 16 32 = Config.ref.toList
      ∧ slice q 32 48 = List.replicate 16 0x00#8 := by
    simp only [authBodyValid, Bool.and_eq_true, beq_iff_eq, and_assoc]
  refine ⟨hvalid, rfl, fun h => ⟨?_, ?_⟩⟩
  · rw [authResponsePlain, (hvalid.mp h).1]
  · simp [authResponsePlain, slice_length q, hlen]

/-- The checks on a challenge of 64 bytes, in their order (41 R166). -/
theorem authRespond_challenge {ch : List Byte} (hlen : ch.length = 64) : authRespond (some ch) =
    if slice ch 0 16 ≠ Config.auth1rHdr.toList then .error .headerInvalid
    else if authBodyValid (authPlain ch) = false then .error .bodyInvalid
    else .ok (auth2Body (authPlain ch)) := by
  simp [authRespond, hlen, authHeaderValid]

/-- Settles O60, check by check. -/
theorem authAnswersByTheFirstFailingCheck : Obligations.AuthAnswersByTheFirstFailingCheck := by
  refine ⟨rfl, fun ch hlen => ⟨fun hh => ?_, fun hh hb => ?_, fun hh hb => ?_⟩⟩
  · rw [authRespond_challenge hlen, if_pos hh]
    rfl
  · rw [authRespond_challenge hlen, if_neg (not_not.mpr hh), if_pos hb]
    rfl
  · rw [authRespond_challenge hlen, if_neg (not_not.mpr hh), if_neg (ne_false_of_eq_true hb)]

end Sys2Proof.Machine

/-! ## The ends of a pending command (41 R150, R151; 60 R210; 70 R242, R254) -/

namespace Sys2Proof.Machine

variable {s t u : State} {i : Instr} {c : Command} {k : Nat}

/-! ### While a command runs -/

/-- The command is still running, and BUF is as it was. -/
def StillRunning (s t : State) : Prop := t.busy = true ∧ t.pending = s.pending ∧ t.buf = s.buf

theorem StillRunning.trans (h : StillRunning s t) (h' : StillRunning t u) : StillRunning s u := by
  simp_all [StillRunning]

/-- A transaction is no operation of the engine (30 R80). -/
theorem toInstr_ne_of_decodeTxn {x : Txn} (hx : decodeTxn x = .ok i) (c : Command) : i ≠ c.toInstr := by
  rintro rfl
  rw [decodeTxn, if_neg (by simp [decodeTxn_size hx])] at hx
  have hbus := encode_of_decodeSelector hx
  rw [encode_toInstr] at hbus
  cases hbus

/-- While a command runs, no host transaction ends it or changes BUF: a BUF write and a CMD write are held (20 R66). -/
theorem ExecEffect.stillRunning (h : ExecEffect s i t) (hb : s.busy = true) (hi : ∀ c : Command, i ≠ c.toInstr) :
    StillRunning s t := by
  cases h with
  | read | hold | loadAcc | verify | clear => simp [StillRunning, hb]
  | store hidle | accept hidle | reject hidle => simp [hb] at hidle
  | finish | outOfRange => exact absurd rfl (hi _)

/-! ### How a command ends -/

/-- The next step completes the pending command. -/
def Completes (u : State) : Prop :=
  ∃ c es t, u.pending = some c ∧ step u = exec c.toInstr { u with events := es } ∧ step u = .next t
    ∧ t.busy = false ∧ t.done = true ∧ t.pending = none

/-- The next step abandons the pending command by a reset, or stops the run. -/
def Stops (u : State) : Prop :=
  (∃ es, u.held = none ∧ u.events = .reset :: es
      ∧ step u = .next { State.reset with resp := u.resp, events := es })
    ∨ (∃ x es c, u.held = none ∧ u.events = .host x :: es ∧ decodeTxn x = .error c
      ∧ step u = .fault (.busError c x.off))
    ∨ ∃ i es, u.held = some i ∧ u.events = .reset :: es ∧ step u = .refused .resetWhileOutstanding

theorem Invariant.pending_of_busy (hs : Invariant s) (hb : s.busy = true) :
    ∃ c, s.pending = some c ∧ c.inRange = true := by
  obtain ⟨c, hp⟩ := Option.isSome_iff_exists.mp (hs.busyPending ▸ hb)
  exact ⟨c, hp, checkCommand_inRange (hs.pendingIsCmd c hp)⟩

/-- A step that performs the pending command completes it. -/
theorem completes_of_step (hp : s.pending = some c) (hr : c.inRange = true) {es : List Event}
    (h : step s = exec c.toInstr { s with events := es }) : Completes s :=
  ⟨c, es, _, hp, h, h.trans (exec_inRange hr _), rfl, rfl, rfl⟩

theorem step_free_reset (hh : s.held = none) {es : List Event} (he : s.events = .reset :: es) :
    step s = .next { State.reset with resp := s.resp, events := es } := by
  simp [step_free hh, freeStep, he, resetMove, hh, resetDevice, State.reset]

theorem step_free_busError (hh : s.held = none) {x : Txn} {es : List Event} {cause : BusCause}
    (he : s.events = .host x :: es) (hd : decodeTxn x = .error cause) : step s = .fault (.busError cause x.off) := by
  simp only [step_free hh, freeStep, he, hostMove, hd]

/-- A reset abandons the command, or is refused while a transaction is held (70 R242). -/
theorem stops_of_reset {es : List Event} (he : s.events = .reset :: es) : Stops s := by
  cases hh : s.held with
  | none => exact .inl ⟨es, hh, he, step_free_reset hh he⟩
  | some i => exact .inr (.inr ⟨i, es, hh, he, step_held_reset hh he⟩)

/-- Only a reset or an erroneous transaction abandons a command or stops the run. -/
theorem Stops.input (h : Stops s) : ∃ e ∈ s.events, e = .reset ∨ ∃ x c, e = .host x ∧ decodeTxn x = .error c := by
  obtain ⟨es, -, he, -⟩ | ⟨x, es, c, -, he, hd, -⟩ | ⟨i, es, -, he, -⟩ := h
  · exact ⟨_, he ▸ List.mem_cons_self, .inl rfl⟩
  · exact ⟨_, he ▸ List.mem_cons_self, .inr ⟨x, c, rfl, hd⟩⟩
  · exact ⟨_, he ▸ List.mem_cons_self, .inl rfl⟩

/-- The next step ends the pending command, or takes the host's transaction off the inputs and leaves it running. -/
theorem step_ends_or_stillRunning (hs : Invariant s) (hb : s.busy = true) :
    (Completes s ∨ Stops s)
      ∨ ∃ e es t, s.events = e :: es ∧ step s = .next t ∧ t.events = es ∧ StillRunning s t := by
  obtain ⟨c, hp, hr⟩ := hs.pending_of_busy hb
  obtain ⟨hengine, hnone, hheld⟩ := stepRunsThePendingCommand s c hb hp
  cases he : s.events with
  | nil => exact .inl (.inl (completes_of_step hp hr (es := s.events) (hnone he)))
  | cons e es =>
    cases e with
    | engine => exact .inl (.inl (completes_of_step hp hr (hengine es he)))
    | reset => exact .inl (.inr (stops_of_reset he))
    | host x =>
      cases hh : s.held with
      | some i => exact .inl (.inl (completes_of_step hp hr (es := s.events) (hheld i x es hh he)))
      | none =>
        cases hd : decodeTxn x with
        | error cause => exact .inl (.inr (.inr (.inl ⟨x, es, cause, hh, he, hd, step_free_busError hh he hd⟩)))
        | ok i =>
          obtain ⟨t, ht⟩ := exec_answers_next i (withEvents es s)
          have hstep := stepRunsTheDecodedTransaction s x es i hh he hd
          exact .inr ⟨_, es, t, rfl, hstep.trans ht, exec_events ht,
            (exec_effect ht).stillRunning hb (toInstr_ne_of_decodeTxn hd)⟩

/-! ### Runs -/

/-- A run goes on with a step of the state it reached. -/
theorem run_succ_of_run (h : core.run k s = .next u) : core.run (k + 1) s = step u := by
  induction k generalizing s with
  | zero =>
    obtain rfl : s = u := Host.Outcome.next.inj h
    exact run_one s
  | succ k ih =>
    cases hs : step s with
    | next t =>
      rw [run_of_step _ hs] at h ⊢
      exact ih h
    | fault f => rw [run_of_fault _ hs] at h; cases h
    | refused r => rw [run_of_refused _ hs] at h; cases h

/-- A pending command stays pending until a step ends it, at the latest when the inputs are exhausted. -/
theorem run_to_end (s : State) (hs : Invariant s) (hb : s.busy = true) :
    ∃ k u, k ≤ s.events.length ∧ core.run k s = .next u ∧ StillRunning s u ∧ u.events <:+ s.events
      ∧ (Completes u ∨ Stops u) := by
  obtain hend | ⟨e, es, t, he, hstep, hev, hrun⟩ := step_ends_or_stillRunning hs hb
  · exact ⟨0, s, Nat.zero_le _, rfl, ⟨hb, rfl, rfl⟩, List.suffix_rfl, hend⟩
  · obtain ⟨k, u, hk, hu, htu, hsuffix, hend⟩ := run_to_end t (stepKeepsTheInvariant s t hs hstep) hrun.1
    rw [hev] at hk hsuffix
    refine ⟨k + 1, u, ?_, (run_of_step k hstep).trans hu, hrun.trans htu, ?_, hend⟩
    · rw [he, List.length_cons]
      omega
    · exact he ▸ hsuffix.trans (List.suffix_cons e es)
termination_by s.events.length
decreasing_by simp [he, hev]

/-- Settles O19. -/
theorem pendingCommandCompletesOrIsAbandonedOrStopped :
    Obligations.PendingCommandCompletesOrIsAbandonedOrStopped := by
  intro s hs hb
  obtain ⟨k, u, hk, hrun, ⟨hub, hup, hubuf⟩, -, hend⟩ := run_to_end s hs hb
  refine ⟨k, u, hk, hrun, hub, hup, hubuf, ?_⟩
  rw [← hup]
  exact hend

/-- Settles O20: of the ends only the completion is left. -/
theorem pendingCommandCompletesWithoutStop : Obligations.PendingCommandCompletesWithoutStop := by
  intro s hs hb hev
  obtain ⟨k, u, hk, hrun, -, hsuffix, hend⟩ := run_to_end s hs hb
  obtain ⟨c, es, t, -, -, hstep, ht⟩ | hstops := hend
  · exact ⟨k + 1, t, by omega, (run_succ_of_run hrun).trans hstep, ht⟩
  · obtain ⟨e, he, hbad⟩ := hstops.input
    obtain rfl | ⟨x, i, rfl, hi⟩ := hev e (hsuffix.subset he)
    · simp at hbad
    · simp [hi] at hbad

end Sys2Proof.Machine

/-! ## Register, buffer and constant access (42 R181 to R190; 60 R217) -/

namespace Sys2Proof.Machine

variable {s : State} {i : Instr} {d : Word} {off : BitVec 8}

/-! ### Decoding an access by its encoding -/

theorem encode_injective {j : Instr} (h : encode i = encode j) : i = j := by
  have hdecode := congrArg decode h
  rwa [decodeOfEncodeIsTheInstruction, decodeOfEncodeIsTheInstruction, Except.ok.injEq] at hdecode

/-- A selector with its kept data decodes to the one instruction that it encodes. -/
theorem decodeSelector_ok_iff {sel : BitVec 9} :
    decodeSelector sel d = .ok i ↔ encode i = .bus sel (keptData sel d) := by
  refine ⟨encode_of_decodeSelector, fun h => ?_⟩
  cases hd : decodeSelector sel d with
  | ok j => rw [encode_injective (h.trans (encode_of_decodeSelector hd).symm)]
  | error c =>
    have hi := decodeOfEncodeIsTheInstruction i
    simp [h, decode, decodeSelector_error_data hd] at hi

theorem keptData_selector_read (off : BitVec 8) (d : Word) : keptData (selector .read off) d = 0#32 :=
  keptData_read (by revert off; decide +kernel) d

theorem keptData_selector_write (off : BitVec 8) (d : Word) : keptData (selector .write off) d = d :=
  keptData_write (by revert off; decide +kernel) d

theorem decodesTo_read (h : encode i = .bus (selector .read off) 0#32) : DecodesTo .read off d (.ok i) :=
  decodesTo_of_selector (decodeSelector_ok_iff.mpr (by rw [h, keptData_selector_read]))

theorem decodesTo_write (h : encode i = .bus (selector .write off) d) : DecodesTo .write off d (.ok i) :=
  decodesTo_of_selector (decodeSelector_ok_iff.mpr (by rw [h, keptData_selector_write]))

/-- A selector that is in error with some data is in error with any. -/
theorem decodesTo_error {dir : Dir} {c : BusCause} (h : decodeSelector (selector dir off) 0#32 = .error c) :
    DecodesTo dir off d (.error c) :=
  decodesTo_of_selector (decodeSelector_error_data h d)

/-! ### CMD and STATUS -/

theorem statusWord_fields (s : State) : (statusWord s).extractLsb 31 8 = 0#24
    ∧ (statusWord s).extractLsb 7 4 = s.errcode ∧ (statusWord s).extractLsb 3 3 = 0#1
    ∧ (statusWord s).extractLsb 2 2 = BitVec.ofBool s.err ∧ (statusWord s).extractLsb 1 1 = BitVec.ofBool s.done
    ∧ (statusWord s).extractLsb 0 0 = BitVec.ofBool s.busy := by
  unfold statusWord
  refine ⟨?_, ?_, ?_, ?_, ?_, ?_⟩ <;> grind

/-- Settles O47. -/
theorem commandAndStatusReadsAnswerTheRegisters : Obligations.CommandAndStatusReadsAnswerTheRegisters :=
  fun s _ => ⟨decodesTo_read rfl, decodesTo_read rfl, exec_cmdRd s, _, exec_statusRd s, statusWord_fields s⟩

theorem ofBool_eq_one_iff (b : Bool) : BitVec.ofBool b = 1#1 ↔ b = true :=
  BitVec.ofBool_eq_iff_eq (b' := true)

/-- The bits of `wdata` that STATUS_WR looks at, as the spec writes them (42 R184). -/
theorem clears_iff (d : Word) : (d.extractLsb 1 1 = 1#1 ↔ clearsDone d = true)
    ∧ (d.extractLsb 2 2 = 1#1 ↔ clearsErr d = true) := by
  have hdone : d.extractLsb 1 1 = BitVec.ofBool (clearsDone d) := by unfold clearsDone; grind
  have herr : d.extractLsb 2 2 = BitVec.ofBool (clearsErr d) := by unfold clearsErr; grind
  rw [hdone, herr]
  exact ⟨ofBool_eq_one_iff _, ofBool_eq_one_iff _⟩

theorem respondWrite_clearStatus (clrDone clrErr : Bool) (s : State) : respondWrite (clearStatus clrDone clrErr s) =
    { s with
      done := if clrDone then false else s.done
      err := if clrErr then false else s.err
      errcode := if clrErr then 0x0#4 else s.errcode
      resp := some .writeDone } := by
  cases clrDone <;> cases clrErr <;> simp [respondWrite, clearStatus]

/-- Settles O48. -/
theorem statusWriteClearsByOnes : Obligations.StatusWriteClearsByOnes := by
  refine fun s d => ⟨decodesTo_write rfl, ?_⟩
  obtain ⟨hdone, herr⟩ := clears_iff d
  simp only [exec_statusWr, respondWrite_clearStatus, hdone, herr]

/-- A STATUS read answers BUSY and DONE as they stand at its step (60 R217). -/
theorem step_statusRead {es : List Event} (hh : s.held = none)
    (he : s.events = .host ⟨.read, 0x04#8, 4, d⟩ :: es) :
    ∃ t v, step s = .next t ∧ t.resp = some (.readData v) ∧ v.extractLsb 0 0 = BitVec.ofBool s.busy
      ∧ v.extractLsb 1 1 = BitVec.ofBool s.done ∧ t.pending = s.pending ∧ t.events = es := by
  obtain ⟨-, -, -, -, hdone, hbusy⟩ := statusWord_fields s
  exact ⟨_, statusWord s, stepRunsTheDecodedTransaction s _ es .statusRd hh he (decodesTo_read rfl 4), rfl, hbusy,
    hdone, rfl, rfl⟩

/-- Settles O22: made first, the read sees the command running; after the engine's turn it sees the state that the
completion left. -/
theorem statusReadComesBeforeOrAfterTheCompletion : Obligations.StatusReadComesBeforeOrAfterTheCompletion := by
  intro s c d es hb hp hr hh
  refine ⟨?_, ?_⟩
  · obtain ⟨t, v, hstep, hresp, hbusy, hdone, hpending, hev⟩ :=
      step_statusRead (s := { s with events := .host ⟨.read, 0x04#8, 4, d⟩ :: es }) hh rfl
    exact ⟨t, v, (run_one _).trans hstep, hresp, hbusy.trans (congrArg BitVec.ofBool hb), hdone, hpending.trans hp,
      hev⟩
  · obtain ⟨hengine, -⟩ :=
      stepRunsThePendingCommand { s with events := .engine :: .host ⟨.read, 0x04#8, 4, d⟩ :: es } c hb hp
    have hfinish := (hengine _ rfl).trans (exec_inRange hr _)
    obtain ⟨t, v, hstep, hread⟩ := step_statusRead (s := finishCommand (commandResult c s.buf)
      { s with events := .host ⟨.read, 0x04#8, 4, d⟩ :: es }) hh rfl
    exact ⟨t, v, (run_of_step 1 hfinish).trans ((run_one _).trans hstep), hread⟩

/-! ### BUF words -/

theorem selector_bufWord (w : BitVec 4) :
    selector .read (0x40#8 + 4#8 * w.setWidth 8) = 0b001#3 ++ w ++ 0b00#2
      ∧ selector .write (0x40#8 + 4#8 * w.setWidth 8) = 0b101#3 ++ w ++ 0b00#2 := by
  revert w
  decide

theorem byteLane_wordOfBytes (b0 b1 b2 b3 : Byte) :
    byteLane (wordOfBytes b0 b1 b2 b3) 0 = b0 ∧ byteLane (wordOfBytes b0 b1 b2 b3) 1 = b1
      ∧ byteLane (wordOfBytes b0 b1 b2 b3) 2 = b2 ∧ byteLane (wordOfBytes b0 b1 b2 b3) 3 = b3 := by
  unfold byteLane wordOfBytes
  refine ⟨?_, ?_, ?_, ?_⟩ <;> grind

/-- Settles O49. -/
theorem bufReadAnswersTheWord : Obligations.BufReadAnswersTheWord := by
  intro s w d
  obtain ⟨hsel, -⟩ := selector_bufWord w
  refine ⟨decodesTo_read (by rw [hsel, encode]), fun hb => ?_, fun hb => ?_⟩
  · exact (exec_bufRd s w).trans (whenIdle_busy _ _ _ hb)
  · exact ⟨_, exec_bufRd_idle hb w, byteLane_wordOfBytes _ _ _ _⟩

theorem Memory.read_writeWord_lane (m : Memory) (w : BitVec 4) (d : Word) (k : Fin 4) :
    Memory.read (Memory.writeWord m w d) (4 * w.toNat + k.val) = byteLane d k.val := by
  rw [Memory.read_writeWord, if_pos (by omega), Nat.add_sub_cancel_left]

/-- Settles O50. -/
theorem bufWriteStoresTheWord : Obligations.BufWriteStoresTheWord := by
  intro s w d
  obtain ⟨-, hsel⟩ := selector_bufWord w
  have hlane := Memory.read_writeWord_lane s.buf w d
  refine ⟨decodesTo_write (by rw [hsel, encode]), fun hb => ?_, fun hb => ?_⟩
  · exact (exec_bufWr s w d).trans (whenIdle_busy _ _ _ hb)
  · refine ⟨_, exec_bufWr_idle hb w d, hlane 0, hlane 1, hlane 2, hlane 3, fun j hj => ?_⟩
    exact (Memory.read_writeWord s.buf w d j).trans (if_neg (by omega))

/-! ### The constant windows -/

theorem selector_constWord (w : BitVec 2) :
    selector .read (0x80#8 + 4#8 * w.setWidth 8) = 0b01000#5 ++ w ++ 0b00#2
      ∧ selector .read (0x90#8 + 4#8 * w.setWidth 8) = 0b01001#5 ++ w ++ 0b00#2
      ∧ selector .read (0xA0#8 + 4#8 * w.setWidth 8) = 0b01010#5 ++ w ++ 0b00#2 := by
  revert w
  decide

/-- No row of the map takes a write to a constant window, whatever its data (30 R84). -/
theorem decodesTo_constWrite (w : BitVec 2) (d : Word) :
    DecodesTo .write (0x80#8 + 4#8 * w.setWidth 8) d (.error .direction)
      ∧ DecodesTo .write (0x90#8 + 4#8 * w.setWidth 8) d (.error .direction)
      ∧ DecodesTo .write (0xA0#8 + 4#8 * w.setWidth 8) d (.error .direction) := by
  refine ⟨decodesTo_error ?_, decodesTo_error ?_, decodesTo_error ?_⟩ <;> (revert w; decide)

theorem byteLane_constWord (a : Block) (w : BitVec 2) (k : Fin 4) (hk : 4 * w.toNat + k.val < 16) :
    byteLane (constWord a w) k.val = a[4 * w.toNat + k.val] := by
  have := w.isLt
  obtain ⟨h0, h1, h2, h3⟩ :=
    byteLane_wordOfBytes a[4 * w.toNat] a[4 * w.toNat + 1] a[4 * w.toNat + 2] a[4 * w.toNat + 3]
  match k, hk with
  | 0, _ => exact h0
  | 1, _ => exact h1
  | 2, _ => exact h2
  | 3, _ => exact h3

/-- Settles O52. -/
theorem constantReadsAnswerTheConstants : Obligations.ConstantReadsAnswerTheConstants := by
  intro s w d k hk
  obtain ⟨href, hauth1, hauth2⟩ := selector_constWord w
  obtain ⟨hrefWr, hauth1Wr, hauth2Wr⟩ := decodesTo_constWrite w d
  refine ⟨⟨hrefWr, decodesTo_read ?_, _, exec_refRd s w, byteLane_constWord _ w k hk⟩,
    ⟨hauth1Wr, decodesTo_read ?_, _, exec_auth1rHdrRd s w, byteLane_constWord _ w k hk⟩,
    ⟨hauth2Wr, decodesTo_read ?_, _, exec_auth2HdrRd s w, byteLane_constWord _ w k hk⟩⟩
  · rw [href, encode]
  · rw [hauth1, encode]
  · rw [hauth2, encode]

end Sys2Proof.Machine

/-! ## The stops of a step: bus errors and a reset while held (60 R210 to R213; 70 R242) -/

namespace Sys2Proof.Machine

variable {s : State} {t : Txn} {es : List Event} {dir : Dir} {off : BitVec 8}

/-! ### The cause of a bus error -/

theorem selector_fields (dir : Dir) (off : BitVec 8) :
    (selector dir off).extractLsb' 0 2 = off.extractLsb 1 0 ∧ (selector dir off).extractLsb' 0 8 = off := by
  cases dir <;> simp only [selector] <;> constructor <;> grind

theorem selectorLegal_selector (ha : off.extractLsb 1 0 = 0b00#2) (hr : isReserved off = false) (dir : Dir) :
    SelectorLegal (selector dir off) := by
  obtain ⟨hlow, hoff⟩ := selector_fields dir off
  exact ⟨hlow.trans ha, (congrArg isReserved hoff).trans hr⟩

/-- The aligned reserved offsets (60 R210). -/
theorem isReserved_iff (ha : off.extractLsb 1 0 = 0b00#2) : isReserved off = true ↔
    0x1C ≤ off.toNat ∧ off.toNat ≤ 0x3C ∨ 0xB0 ≤ off.toNat ∧ off.toNat ≤ 0xFC := by
  have halign : off.toNat % 4 = 0 := by simpa using congrArg BitVec.toNat ha
  have hlt := off.isLt
  simp only [isReserved, Bool.or_eq_true, Bool.and_eq_true, decide_eq_true_eq, BitVec.le_def, BitVec.lt_def,
    BitVec.toNat_ofNat]
  omega

/-- The accesses that the map has in the other direction only: reads of the two add registers, writes of HEX and of the
constant windows (60 R210, R211). -/
def WrongDirection (dir : Dir) (off : BitVec 8) : Prop :=
  dir = .read ∧ (off = 0x0C#8 ∨ off = 0x10#8)
    ∨ dir = .write ∧ (off = 0x14#8 ∨ 0x80 ≤ off.toNat ∧ off.toNat ≤ 0xAC)

theorem WrongDirection.not_reserved (h : WrongDirection dir off) (ha : off.extractLsb 1 0 = 0b00#2) :
    isReserved off = false := by
  rw [← Bool.not_eq_true, isReserved_iff ha]
  obtain ⟨-, rfl | rfl⟩ | ⟨-, rfl | hconst⟩ := h
  · decide
  · decide
  · decide
  · omega

/-- The map has a row for exactly the legal accesses in the right direction. -/
theorem exists_busRow_iff (h : SelectorLegal (selector dir off)) :
    (∃ r ∈ busRows, r.matchesSel (selector dir off) = true) ↔ ¬ WrongDirection dir off := by
  unfold WrongDirection
  unfold SelectorLegal at h
  revert off
  cases dir <;> decide

theorem decodeSelector_align (ha : off.extractLsb 1 0 ≠ 0b00#2) (d : Word) :
    decodeSelector (selector dir off) d = .error .align := by
  obtain ⟨hlow, -⟩ := selector_fields dir off
  rw [decodeSelector, if_pos (hlow ▸ ha)]

theorem decodeSelector_reserved (ha : off.extractLsb 1 0 = 0b00#2) (hr : isReserved off = true) (d : Word) :
    decodeSelector (selector dir off) d = .error .reserved := by
  obtain ⟨hlow, hoff⟩ := selector_fields dir off
  rw [decodeSelector, if_neg (not_not.mpr (hlow.trans ha)), if_pos ((congrArg isReserved hoff).trans hr)]

theorem decodeSelector_direction (ha : off.extractLsb 1 0 = 0b00#2) (hw : WrongDirection dir off) (d : Word) :
    decodeSelector (selector dir off) d = .error .direction := by
  have hlegal := selectorLegal_selector ha (hw.not_reserved ha) dir
  have hnone : busRows.find? (fun r => r.matchesSel (selector dir off)) = none :=
    List.find?_eq_none.mpr fun r hr hmatch => (exists_busRow_iff hlegal).mp ⟨r, hr, hmatch⟩ hw
  obtain ⟨halign, hres⟩ := hlegal
  simp [decodeSelector, halign, hres, hnone]

theorem decodeSelector_answers (ha : off.extractLsb 1 0 = 0b00#2) (hr : isReserved off = false)
    (hw : ¬ WrongDirection dir off) (d : Word) : ∃ i, decodeSelector (selector dir off) d = .ok i := by
  have hlegal := selectorLegal_selector ha hr dir
  obtain ⟨r, hrow, hmatch⟩ := (exists_busRow_iff hlegal).mpr hw
  exact ⟨_, decodeSelector_of_match hrow hlegal hmatch d⟩

theorem decodeTxn_of_size (hsize : t.size = 4) : decodeTxn t = decodeSelector (selector t.dir t.off) t.wdata :=
  if_neg (not_not.mpr hsize)

/-! ### What the step makes of it -/

theorem step_host_answers {i : Instr} (hh : s.held = none) (he : s.events = .host t :: es)
    (hd : decodeTxn t = .ok i) : ∃ u, step s = .next u := by
  obtain ⟨u, hu⟩ := exec_answers_next i { s with events := es }
  exact ⟨u, (stepRunsTheDecodedTransaction s t es i hh he hd).trans hu⟩

/-- Settles O6: nothing but the transaction decides its cause, so a running command does not. -/
theorem busErrorsComeInOrderBeforeAnyStall : Obligations.BusErrorsComeInOrderBeforeAnyStall := by
  intro s t es hh he
  refine ⟨fun hsize => ?_, fun hsize ha => ?_, fun hsize ha hr => ?_, fun hsize ha hw => ?_,
    fun hsize ha hoff hread hwrite => ?_⟩
  · exact step_free_busError hh he (if_pos hsize)
  · exact step_free_busError hh he ((decodeTxn_of_size hsize).trans (decodeSelector_align ha _))
  · exact step_free_busError hh he
      ((decodeTxn_of_size hsize).trans (decodeSelector_reserved ha ((isReserved_iff ha).mpr hr) _))
  · exact step_free_busError hh he ((decodeTxn_of_size hsize).trans (decodeSelector_direction ha hw _))
  · have hr : isReserved t.off = false := by
      rw [← Bool.not_eq_true, isReserved_iff ha]
      omega
    obtain ⟨i, hi⟩ := decodeSelector_answers ha hr (not_or.mpr ⟨hread, hwrite⟩) t.wdata
    have hd := (decodeTxn_of_size hsize).trans hi
    obtain ⟨u, hu⟩ := step_host_answers hh he hd
    exact ⟨i, u, hd, hu⟩

/-! ### What else stops a step -/

/-- With no command running only the input at the head can stop a step: the held transaction is performed. -/
theorem step_idle_answers_or_stops (hb : s.busy = false) : (∃ u, step s = .next u) ∨ Stops s := by
  cases hh : s.held with
  | none =>
    obtain ⟨hnone, hengine⟩ := idleStepChangesNothing s hh hb
    match he : s.events with
    | [] => exact .inl ⟨_, hnone he⟩
    | .engine :: es => exact .inl ⟨_, hengine es he⟩
    | .reset :: es => exact .inr (stops_of_reset he)
    | .host x :: es =>
      cases hd : decodeTxn x with
      | ok i => exact .inl (step_host_answers hh he hd)
      | error c => exact .inr (.inr (.inl ⟨x, es, c, hh, he, hd, step_free_busError hh he hd⟩))
  | some i =>
    obtain ⟨hnone, hhost, hengine, -⟩ := stepPerformsTheHeldTransaction s i hh hb
    match he : s.events with
    | [] => exact .inl (hnone he ▸ exec_answers_next i _)
    | .engine :: es => exact .inl (hengine es he ▸ exec_answers_next i _)
    | .reset :: es => exact .inr (stops_of_reset he)
    | .host x :: es => exact .inl (hhost x es he ▸ exec_answers_next i _)

/-- A command that runs is pending, so the engine's turn is no stop. -/
theorem step_answers_or_stops (hs : Invariant s) : (∃ u, step s = .next u) ∨ Stops s := by
  cases hb : s.busy with
  | false => exact step_idle_answers_or_stops hb
  | true =>
    obtain (⟨-, -, u, -, -, hu, -⟩ | hstops) | ⟨-, -, u, -, hu, -⟩ := step_ends_or_stillRunning hs hb
    · exact .inl ⟨u, hu⟩
    · exact .inr hstops
    · exact .inl ⟨u, hu⟩

/-- Settles O18: a reset that finds nothing held is no stop. -/
theorem stepStopsOnlyOnErrorOrReset : Obligations.StepStopsOnlyOnErrorOrReset := by
  intro s hs
  obtain hnext | ⟨es, -, -, hreset⟩ | hstop := step_answers_or_stops hs
  · exact .inl hnext
  · exact .inl ⟨_, hreset⟩
  · exact .inr hstop

end Sys2Proof.Machine

/-! ## The reset input and the launch state (70 R240 to R242) -/

namespace Sys2Proof.Machine

/-- Settles O13: the record that the step leaves is the launch state's, with the bus side's response and inputs. -/
theorem resetStepSetsEveryField : Obligations.ResetStepSetsEveryField := by
  intro s es hh he
  exact step_free_reset hh he

/-- Settles O14: neither the held transaction's kind nor `busy` matters to the refusal. -/
theorem resetWhileHeldIsRefused : Obligations.ResetWhileHeldIsRefused := by
  intro s i es hh he
  exact step_held_reset hh he

/-- Settles O15: BUF lists no byte at launch, so each byte reads its reset value. -/
theorem resetStateHoldsTheResetValues : Obligations.ResetStateHoldsTheResetValues :=
  ⟨rfl, rfl, rfl, rfl, rfl, rfl, rfl, rfl, rfl, Memory.read_nil, rfl⟩

end Sys2Proof.Machine
